-- ==== Sys2Proof/Word.lean ====
section
/-! DEFINITION. The word types of the core: one width, 8 bits unsigned (R8, R21, 00_scope.md and 10_state.md), and the
9-bit program counter (R27, 10_state.md). -/

namespace Sys2Proof

/-- A register, memory cell, opcode or operand: 8 bits, unsigned (R8, 00_scope.md). -/
abbrev Byte := BitVec 8

/-- The program counter's 9 bits; it holds 0..256 (R27, 10_state.md). -/
abbrev PcWord := BitVec 9

end Sys2Proof
end

