-- ==== Sys2Proof/Config.lean ====
section
/-! DEFINITION. What one machine fixes: the parameters of R6 (00_scope.md) with the spec's defaults. The fixed values of
R6 (256 cells, eight registers, 8-bit words) stand in the types and bounds that use them. -/

namespace Sys2Proof

/-- The thirteen mnemonics of the closed instruction set (R1, 00_scope.md; R63, 30_encoding.md), in the table's order. -/
inductive Mnemonic where
  | hlt | ldi | prn | mul | add | cmp | push | pop | call | ret | jmp | jeq | jne
deriving DecidableEq, Repr

/-- The flags register FL: equal, greater-than, less-than (R29, 10_state.md). -/
structure Flags where
  E : Bool
  G : Bool
  L : Bool
deriving DecidableEq, Repr

namespace Config

/-- OPCODE_MAP's default: the opcode bytes of R63 (30_encoding.md), the spec's decision D1. -/
def defaultOpcode : Mnemonic → Byte
  | .hlt  => 0x01
  | .ldi  => 0x82
  | .prn  => 0x47
  | .mul  => 0xA2
  | .add  => 0xA0
  | .cmp  => 0xA7
  | .push => 0x45
  | .pop  => 0x46
  | .call => 0x50
  | .ret  => 0x11
  | .jmp  => 0x54
  | .jeq  => 0x55
  | .jne  => 0x56

/-- SP_RESET, fixed (R6, 00_scope.md; R24, 10_state.md). -/
def spReset : Byte := 0xF4

end Config

/-- The values R6 (00_scope.md) marks "parameter". LEGACY_MODE is not among them: it is not provided (D18, K6). -/
structure Params where
  /-- SP_INDEX: the stack pointer's register index (R22, D2). -/
  spIndex : Fin 8
  /-- FL_RESET: the flags after reset (R30, D5). -/
  flReset : Flags
  /-- OPCODE_MAP: the opcode byte of each mnemonic (R63, D1). -/
  opcodeMap : Mnemonic → Byte
  /-- STRICT_PREFETCH: an out-of-range candidate operand fetch is fatal (R81, R82, D6). -/
  strictPrefetch : Bool
  /-- SP_WRAP: the stack pointer wraps instead of raising (R130, D7). -/
  spWrap : Bool

/-- OPCODE_MAP is "an injective map from mnemonic to byte" (D1, 92_eei_decisions.md). -/
def Params.InjectiveOpcodes (p : Params) : Prop :=
  ∀ m n : Mnemonic, p.opcodeMap m = p.opcodeMap n → m = n

/-- This hardware: every parameter at the default R6 gives. -/
def Config.hardware : Params where
  spIndex := 7
  flReset := ⟨false, false, false⟩
  opcodeMap := Config.defaultOpcode
  strictPrefetch := true
  spWrap := false

end Sys2Proof
end

