-- ==== Sys2Proof/Syntax.lean ====
section
/-! DEFINITION. The instructions: one constructor per row of spec/opcode_table.json. -/

namespace Sys2Proof

/-- An instruction, with its operand bytes as they are encoded (R60, R61, 30_encoding.md). `a` is the byte at `pc + 1` and
`b` the byte at `pc + 2`. A register operand keeps its whole byte: a value of 8 or more names no register and is caught by
the operand check of the step, after decode (R64, R85), so it is part of the instruction here. -/
inductive Instr where
  /-- HLT (R100). -/
  | hlt
  /-- LDI `a` (register), `b` (immediate) (R101). -/
  | ldi (a b : Byte)
  /-- PRN `a` (register) (R102). -/
  | prn (a : Byte)
  /-- MUL `a`, `b` (registers) (R116). -/
  | mul (a b : Byte)
  /-- ADD `a`, `b` (registers) (R117). -/
  | add (a b : Byte)
  /-- CMP `a`, `b` (registers) (R118). -/
  | cmp (a b : Byte)
  /-- PUSH `a` (register) (R131). -/
  | push (a : Byte)
  /-- POP `a` (register) (R132). -/
  | pop (a : Byte)
  /-- CALL `a` (register) (R140). -/
  | call (a : Byte)
  /-- RET (R141). -/
  | ret
  /-- JMP `a` (register) (R142). -/
  | jmp (a : Byte)
  /-- JEQ `a` (register) (R143). -/
  | jeq (a : Byte)
  /-- JNE `a` (register) (R144). -/
  | jne (a : Byte)
deriving DecidableEq, Repr

end Sys2Proof
end

