-- ==== Sys2Proof/WellFormed.lean ====
section
/-! DEFINITION. Which instructions are well formed: every register operand names one of R0..R7 (R23, 10_state.md; R64,
30_encoding.md). An ill-formed one still decodes, and its execution raises OutOfBounds(register, value) (R85). -/

namespace Sys2Proof

/-- The register operands of an instruction, in the order the operand check visits them (R85, 40_execution_cycle.md). -/
def Instr.registerOperands : Instr → List Byte
  | .hlt     => []
  | .ldi a _ => [a]
  | .prn a   => [a]
  | .mul a b => [a, b]
  | .add a b => [a, b]
  | .cmp a b => [a, b]
  | .push a  => [a]
  | .pop a   => [a]
  | .call a  => [a]
  | .ret     => []
  | .jmp a   => [a]
  | .jeq a   => [a]
  | .jne a   => [a]

/-- Every register operand is below 8. -/
def Instr.wellFormed (i : Instr) : Bool :=
  i.registerOperands.all fun v => decide (v.toNat < 8)

end Sys2Proof
end

