-- ==== Sys2Proof/Decode.lean ====
section
/-! DEFINITION. The instruction_decoder (R60 to R70, 30_encoding.md; R83, R84, R96, 40_execution_cycle.md) and, after it,
the encoder from the same tables, and the assembly text (R71). -/

namespace Sys2Proof

/-- Why bytes decode to no instruction. -/
inductive Reject where
  /-- There are fewer bytes than the instruction has. -/
  | truncated
  /-- The first byte is in no row of the opcode map (R68). -/
  | invalidOpcode (op : Byte)
deriving DecidableEq, Repr

/-- The three formats of R60. -/
inductive Format where
  | f0 | f1 | f2
deriving DecidableEq, Repr

/-- The pc_policy output of R84. -/
inductive PcPolicy where
  | advance | set | conditional
deriving DecidableEq, Repr

/-- The alu_op output of R84, without its "none". -/
inductive AluOp where
  | add | multiply | compare
deriving DecidableEq, Repr

/-- All mnemonics, in the order of the table of R63. -/
def Mnemonic.all : List Mnemonic :=
  [.hlt, .ldi, .prn, .mul, .add, .cmp, .push, .pop, .call, .ret, .jmp, .jeq, .jne]

/-- The format column of R63. -/
def Mnemonic.format : Mnemonic → Format
  | .hlt | .ret => .f0
  | .prn | .push | .pop | .call | .jmp | .jeq | .jne => .f1
  | .ldi | .mul | .add | .cmp => .f2

/-- The number of operand bytes of a format (R60, R61). -/
def Format.nops : Format → Nat
  | .f0 => 0
  | .f1 => 1
  | .f2 => 2

/-- The operand count (R61). -/
def Mnemonic.nops (m : Mnemonic) : Nat := m.format.nops

/-- The instruction length in bytes: 1 + the operand count (R62). -/
def Mnemonic.length (m : Mnemonic) : Nat := 1 + m.nops

/-- The PC policy of R84. -/
def Mnemonic.pcPolicy : Mnemonic → PcPolicy
  | .hlt | .ldi | .prn | .mul | .add | .cmp | .push | .pop => .advance
  | .call | .ret | .jmp => .set
  | .jeq | .jne => .conditional

/-- The ALU operation of R84; `none` for an instruction that does not use the alu. -/
def Mnemonic.aluOp : Mnemonic → Option AluOp
  | .mul => some .multiply
  | .add => some .add
  | .cmp => some .compare
  | .hlt | .ldi | .prn | .push | .pop | .call | .ret | .jmp | .jeq | .jne => none

/-- The is_halt output of R84. -/
def Mnemonic.isHalt (m : Mnemonic) : Bool := decide (m = .hlt)

/-- The full-byte match of R63 and R83: the mnemonic whose opcode byte is `op`, if there is one. -/
def decodeOpcode (p : Params) (op : Byte) : Option Mnemonic :=
  Mnemonic.all.find? fun m => p.opcodeMap m == op

/-- The decoder's outputs for a valid opcode (R84). -/
structure DecoderOut where
  mnemonic : Mnemonic
  length   : Nat
  nops     : Nat
  pcPolicy : PcPolicy
  aluOp    : Option AluOp
  isHalt   : Bool
deriving DecidableEq, Repr

/-- The instruction_decoder's interface (R96): a function of `ir` alone, with the outputs of R84 or the decode fault. -/
def decoder (p : Params) (ir : Byte) : Except Reject DecoderOut :=
  match decodeOpcode p ir with
  | none   => .error (.invalidOpcode ir)
  | some m => .ok ⟨m, m.length, m.nops, m.pcPolicy, m.aluOp, m.isHalt⟩

/-- The instruction of mnemonic `m` with operand bytes `a` and `b`, of which it keeps those it has (R60, R66). -/
def assemble (m : Mnemonic) (a b : Byte) : Instr :=
  match m with
  | .hlt  => .hlt
  | .ldi  => .ldi a b
  | .prn  => .prn a
  | .mul  => .mul a b
  | .add  => .add a b
  | .cmp  => .cmp a b
  | .push => .push a
  | .pop  => .pop a
  | .call => .call a
  | .ret  => .ret
  | .jmp  => .jmp a
  | .jeq  => .jeq a
  | .jne  => .jne a

/-- Decode the instruction at the head of a list of bytes, and give the bytes after it. -/
def decode (p : Params) : List Byte → Except Reject (Instr × List Byte)
  | [] => .error .truncated
  | op :: rest =>
    match decodeOpcode p op with
    | none => .error (.invalidOpcode op)
    | some m =>
      match m.format, rest with
      | .f0, rest          => .ok (assemble m 0 0, rest)
      | .f1, a :: rest     => .ok (assemble m a 0, rest)
      | .f2, a :: b :: rest => .ok (assemble m a b, rest)
      | _, _               => .error .truncated

/-- Byte `k` of a number whose bit 0 is the first byte's least significant bit. -/
def tableByte (w k : Nat) : Byte := BitVec.ofNat 8 (w / 256 ^ k)

/-- The three bytes the fetch_unit would hold for a word of spec/opcode_table.json; every bit at `nbits` and above is 0. -/
def tableBytes (nbits w : Nat) : List Byte :=
  let v := w % 2 ^ nbits
  [tableByte v 0, tableByte v 1, tableByte v 2]

/-- The instruction this hardware's decoder reads from a word of spec/opcode_table.json. -/
def decodeTableWord (nbits w : Nat) : Option Instr :=
  match decode Config.hardware (tableBytes nbits w) with
  | .ok (i, _) => some i
  | .error _   => none

/-- The mnemonic of an instruction. -/
def Instr.mnemonic : Instr → Mnemonic
  | .hlt     => .hlt
  | .ldi _ _ => .ldi
  | .prn _   => .prn
  | .mul _ _ => .mul
  | .add _ _ => .add
  | .cmp _ _ => .cmp
  | .push _  => .push
  | .pop _   => .pop
  | .call _  => .call
  | .ret     => .ret
  | .jmp _   => .jmp
  | .jeq _   => .jeq
  | .jne _   => .jne

/-- The operand bytes of an instruction, at increasing addresses (R44, R71). -/
def Instr.operandBytes : Instr → List Byte
  | .hlt     => []
  | .ldi a b => [a, b]
  | .prn a   => [a]
  | .mul a b => [a, b]
  | .add a b => [a, b]
  | .cmp a b => [a, b]
  | .push a  => [a]
  | .pop a   => [a]
  | .call a  => [a]
  | .ret     => []
  | .jmp a   => [a]
  | .jeq a   => [a]
  | .jne a   => [a]

/-- The encoder: the opcode byte of R63, then the operand bytes of R60. -/
def encode (p : Params) (i : Instr) : List Byte :=
  p.opcodeMap i.mnemonic :: i.operandBytes

/-- A register as assembly text writes it (R71). -/
def registerText (v : Byte) : String := "R" ++ toString v.toNat

/-- The assembly text of an instruction (R71): its mnemonic, then its operands in the order of the encoding, an immediate as a
decimal number. The text of an ill-formed instruction names a register that does not exist. -/
def Instr.text : Instr → String
  | .hlt     => "HLT"
  | .ldi a b => "LDI " ++ registerText a ++ ", " ++ toString b.toNat
  | .prn a   => "PRN " ++ registerText a
  | .mul a b => "MUL " ++ registerText a ++ ", " ++ registerText b
  | .add a b => "ADD " ++ registerText a ++ ", " ++ registerText b
  | .cmp a b => "CMP " ++ registerText a ++ ", " ++ registerText b
  | .push a  => "PUSH " ++ registerText a
  | .pop a   => "POP " ++ registerText a
  | .call a  => "CALL " ++ registerText a
  | .ret     => "RET"
  | .jmp a   => "JMP " ++ registerText a
  | .jeq a   => "JEQ " ++ registerText a
  | .jne a   => "JNE " ++ registerText a

end Sys2Proof
end

