-- ==== Sys2Proof/Machine/State.lean ====
section
/-! DEFINITION. The state of the core (section 1 of 10_state.md), its exceptions (60_exceptions.md), the two reasons a step
can stop, and reset (70_reset_and_hazards.md). -/

namespace Sys2Proof.Machine

/-- The kind of an OutOfBounds exception (R161, 60_exceptions.md). -/
inductive BoundKind where
  | memory | register | stack
deriving DecidableEq, Repr

/-- What `raise E(info)` raises (R160 to R163, 60_exceptions.md). -/
inductive Exception where
  /-- OutOfBounds: `value` is the address, the operand byte, or the value the stack pointer would take. -/
  | outOfBounds (kind : BoundKind) (value : Int)
  /-- InvalidInstruction: the opcode byte. -/
  | invalidInstruction (op : Byte)
  /-- UnsupportedOperation: the alu selector. -/
  | unsupportedOperation (sel : BitVec 2)
deriving DecidableEq, Repr

/-- fault_code, 2 bits: 0 none, 1 OutOfBounds, 2 InvalidInstruction, 3 UnsupportedOperation (R34, 10_state.md). -/
inductive FaultCode where
  | none | outOfBounds | invalidInstruction | unsupportedOperation
deriving DecidableEq, Repr

/-- fault_info: the kind and value given with `raise` (R34, 10_state.md; R161 to R163, 60_exceptions.md). -/
inductive FaultInfo where
  | bound (kind : BoundKind) (value : Int)
  | opcode (op : Byte)
  | selector (sel : BitVec 2)
deriving DecidableEq, Repr

/-- The 256 memory cells (R40, 20_memory.md): the cells that do not hold 0, at strictly rising addresses. Every cell is 0
at reset (R40), so an address that is not listed reads as 0. -/
structure Memory where
  cells : List Host.Cell
deriving DecidableEq, Repr

/-- The architectural state of the core: the table of 10_state.md section 1, a field each. -/
structure State where
  /-- Memory cells M[0..255] (R40). -/
  mem : Memory
  /-- R0..R7 (R21). -/
  regs : Vector Byte 8
  /-- The flags register FL (R29). -/
  fl : Flags
  /-- The program counter (R26, R27). -/
  pc : PcWord
  /-- The halted flag (R32). -/
  halted : Bool
  /-- The output stream, oldest first (R33). -/
  output : List Byte
  /-- The fault status's code (R34). -/
  faultCode : FaultCode
  /-- The fault status's pc (R34). -/
  faultPc : PcWord
  /-- The fault status's detail (R34). -/
  faultInfo : FaultInfo
deriving DecidableEq, Repr

/-- Why there is no step. The core's own exceptions are not here: raising one is a next state, Faulted (R165). -/
inductive Fault where
  /-- Raised by `step` alone, when `halted` is 1: the core has no step (R93, K18). Safe: it stops where the hardware holds its
  state (log entry 1). -/
  | coreHalted
  /-- Raised by `step` alone, when `fault_code` is not 0: the core has no step (R93, K18). Safe: it stops where the hardware
  holds its state (log entry 1). -/
  | coreFaulted
deriving DecidableEq, Repr

/-- Why an instruction has no meaning in the model. -/
inductive Refusal where
  /-- Raised by `exec` for an instruction with no meaning yet, by its mnemonic; no arm raises it now. Safe: it stops. -/
  | notModelled (mnemonic : String)
deriving DecidableEq, Repr

/-- The state after reset (R181, 70_reset_and_hazards.md), for given parameters. `faultPc` and `faultInfo` are
DESIGN CHOICE (log entry 2): R181 leaves them unspecified and unobservable. -/
def State.resetWith (p : Params) : State where
  mem := ⟨[]⟩
  regs := (Vector.replicate 8 0).set p.spIndex.val Config.spReset
  fl := p.flReset
  pc := 0
  halted := false
  output := []
  faultCode := .none
  faultPc := 0
  faultInfo := .opcode 0

/-- The state after reset of this hardware (R181). -/
def State.reset : State := State.resetWith Config.hardware

end Sys2Proof.Machine
end

