-- ==== Sys2Proof/Machine/Flags.lean ====
section
/-! DEFINITION. The flag computations: what a comparison sets (R114, 42_alu.md) and the byte view of FL (R31, 10_state.md). -/

namespace Sys2Proof.Machine

/-- The flags of comparing `a` with `b`, unsigned, from scratch (R114). -/
def compareFlags (a b : Byte) : Flags :=
  if a.toNat = b.toNat then ⟨true, false, false⟩
  else if b.toNat < a.toNat then ⟨false, true, false⟩
  else ⟨false, false, true⟩

/-- FL as a byte: E in bit 0, G in bit 1, L in bit 2, bits 7:3 zero (R31). No instruction can observe it. -/
def flagsByte (f : Flags) : Byte :=
  BitVec.ofNat 8 (f.E.toNat + 2 * f.G.toNat + 4 * f.L.toNat)

end Sys2Proof.Machine
end

