-- ==== Sys2Proof/Machine/Ops.lean ====
section
/-! DEFINITION. The named operations over memory, registers and control state (the primitives of R9, 00_scope.md), the
program counter's policies (R87), the stack pointer's updates (R130), and the one operation that takes an exception
(R165). No instruction returns from an exception (R169), so there is no return beside it. -/

namespace Sys2Proof.Machine

/-! ### The memory array -/

/-- What a cell that is not listed reads as: 0 (R40, 20_memory.md: "zero-filled"). -/
def Memory.unlisted : Byte := 0

/-- The byte that a list of cells holds at an address. -/
def getCells : List Host.Cell → Nat → Byte
  | [], _ => Memory.unlisted
  | (b, w) :: t, a => if a = b then w else getCells t a

/-- A list of cells with the byte `v` at address `a`, in canonical form. -/
def putCells : List Host.Cell → Nat → Byte → List Host.Cell
  | [], a, v => if v = Memory.unlisted then [] else [(a, v)]
  | (b, w) :: t, a, v =>
    if a < b then
      if v = Memory.unlisted then (b, w) :: t else (a, v) :: (b, w) :: t
    else if a = b then
      if v = Memory.unlisted then t else (a, v) :: t
    else
      (b, w) :: putCells t a v

/-- The cells lie at strictly rising addresses from `lo` up to 255, and none holds what an unlisted address reads as. -/
def cellsWf : List Host.Cell → Nat → Bool
  | [], _ => true
  | (a, v) :: t, lo => decide (lo ≤ a) && decide (a < 256) && decide (v ≠ Memory.unlisted) && cellsWf t (a + 1)

/-- The canonical form of memory. -/
def Memory.wf (m : Memory) : Bool := cellsWf m.cells 0

/-- The byte in cell `a`. -/
def Memory.get (m : Memory) (a : Nat) : Byte := getCells m.cells a

/-- Memory with `v` in cell `a`. -/
def Memory.put (m : Memory) (a : Nat) (v : Byte) : Memory := ⟨putCells m.cells a v⟩

/-! ### memory_interface -/

/-- The bound of R41: an address is a cell's when `0 <= addr < 256`. -/
def inMemory (addr : Int) : Bool := decide (0 ≤ addr) && decide (addr < 256)

/-- `MemRead(addr, 1)` (R9, R41, R42). -/
def memRead (addr : Int) (s : State) : Except Exception Byte :=
  if inMemory addr then .ok (s.mem.get addr.toNat) else .error (.outOfBounds .memory addr)

/-- `MemWrite(addr, 1, v)` (R9, R41, R42). -/
def memWrite (addr : Int) (v : Byte) (s : State) : Except Exception State :=
  if inMemory addr then .ok { s with mem := s.mem.put addr.toNat v } else .error (.outOfBounds .memory addr)

/-! ### register_file -/

/-- `x[i]` for an index the operand check has passed (R9, R21). -/
def State.reg (s : State) (i : Fin 8) : Byte := s.regs[i.val]

/-- `x[i] <- v` for an index the operand check has passed (R9, R21). No register is hardwired (R21). -/
def State.setReg (s : State) (i : Fin 8) (v : Byte) : State := { s with regs := s.regs.set i.val v }

/-- `FL <- (E, G, L)` (R9, R29). -/
def State.setFlags (s : State) (f : Flags) : State := { s with fl := f }

/-- `Out(v)`: append to the output stream (R9, R33). -/
def State.emit (s : State) (v : Byte) : State := { s with output := s.output ++ [v] }

/-- `halted <- 1` (R9, R32). -/
def State.halt (s : State) : State := { s with halted := true }

/-! ### program_counter_control -/

/-- The pc policy Advance: `pc <- pc + length`, an exact sum (R87, R89). -/
def State.advance (s : State) (length : Nat) : State := { s with pc := BitVec.ofNat 9 (s.pc.toNat + length) }

/-- The pc policy Set: `pc <- target`, an 8-bit value (R87, R90). -/
def State.jumpTo (s : State) (target : Byte) : State := { s with pc := target.setWidth 9 }

/-- The pc policy Conditional: the target if the condition holds, otherwise `pc + length` (R87). -/
def State.branchIf (s : State) (cond : Bool) (target : Byte) (length : Nat) : State :=
  if cond then s.jumpTo target else s.advance length

/-! ### The stack pointer -/

/-- `SpDec()` (R130, 43_stack.md). -/
def spDec (p : Params) (s : State) : Except Exception State :=
  if s.reg p.spIndex = 0 then
    if p.spWrap then .ok (s.setReg p.spIndex 255) else .error (.outOfBounds .stack (-1))
  else .ok (s.setReg p.spIndex (s.reg p.spIndex - 1))

/-- `SpInc()` (R130, 43_stack.md). -/
def spInc (p : Params) (s : State) : Except Exception State :=
  if s.reg p.spIndex = 255 then
    if p.spWrap then .ok (s.setReg p.spIndex 0) else .error (.outOfBounds .stack 256)
  else .ok (s.setReg p.spIndex (s.reg p.spIndex + 1))

/-! ### Taking an exception -/

/-- `code(E)` (R161 to R163). -/
def Exception.code : Exception → FaultCode
  | .outOfBounds _ _        => .outOfBounds
  | .invalidInstruction _   => .invalidInstruction
  | .unsupportedOperation _ => .unsupportedOperation

/-- The `info` of a raise (R161 to R163). -/
def Exception.info : Exception → FaultInfo
  | .outOfBounds k v          => .bound k v
  | .invalidInstruction op    => .opcode op
  | .unsupportedOperation sel => .selector sel

/-- Fault entry (R165, 60_exceptions.md): the fault status is written and nothing else changes. The state given is the one
before the step. -/
def enterFault (e : Exception) (s : State) : State :=
  { s with faultCode := e.code, faultPc := s.pc, faultInfo := e.info }

/-- The end of a step that began in `s` (R10, 00_scope.md; R80): the working copy is committed, or it is thrown away and the
fault entry of R165 is made. -/
def finish (s : State) : Except Exception State → Host.Outcome State Fault Refusal
  | .ok s'   => .next s'
  | .error e => .next (enterFault e s)

/-- The fault code's 2 bits, as the status port shows them (R34, R98). -/
def FaultCode.bits : FaultCode → BitVec 2
  | .none                 => 0
  | .outOfBounds          => 1
  | .invalidInstruction   => 2
  | .unsupportedOperation => 3

/-- The bytes `bs` in the cells from address `a` up; an address past the last cell takes none. -/
def Memory.putList : Memory → Nat → List Byte → Memory
  | m, _, []      => m
  | m, a, v :: bs => Memory.putList (if a < 256 then m.put a v else m) (a + 1) bs

end Sys2Proof.Machine
end

