-- ==== Sys2Proof/Machine/Alu.lean ====
section
/-! DEFINITION. The alu unit (R110 to R115, 42_alu.md): a pure function of its inputs. -/

namespace Sys2Proof.Machine

/-- What the alu answers: a result where `writes_reg` is 1, flags where `writes_fl` is 1 (R111). The output that goes with a
write-enable of 0 is given no value (log entry 6). -/
inductive AluOut where
  | result (v : Byte)
  | flags (f : Flags)
deriving DecidableEq, Repr

/-- The write enables (R111). -/
def AluOut.writesReg : AluOut → Bool
  | .result _ => true
  | .flags _  => false

/-- See `writesReg`. -/
def AluOut.writesFl : AluOut → Bool
  | .result _ => false
  | .flags _  => true

/-- The selector values (R111): 0 Add, 1 Multiply, 2 Compare. -/
def aluSel : AluOp → BitVec 2
  | .add      => 0
  | .multiply => 1
  | .compare  => 2

/-- The alu (R112 to R115): exact integer arithmetic narrowed modulo 256, an unsigned comparison, and
UnsupportedOperation(3) for the selector that is not an operation. -/
def alu (sel : BitVec 2) (a b : Byte) : Except Exception AluOut :=
  if sel = 0 then .ok (.result (BitVec.ofNat 8 (a.toNat + b.toNat)))
  else if sel = 1 then .ok (.result (BitVec.ofNat 8 (a.toNat * b.toNat)))
  else if sel = 2 then .ok (.flags (compareFlags a b))
  else .error (.unsupportedOperation sel)

/-- The commit of an alu answer by the execution engine (R110): a result to the register, flags to FL. -/
def State.applyAlu (s : State) (rd : Fin 8) : AluOut → State
  | .result v => s.setReg rd v
  | .flags f  => s.setFlags f

end Sys2Proof.Machine
end

