-- ==== Sys2Proof/Machine/Operands.lean ====
section
/-! DEFINITION. Operand access: the operand check (R23, 10_state.md; R64, 30_encoding.md; R85, 40_execution_cycle.md). An
immediate operand (R65) is its byte as it stands and needs no operation. -/

namespace Sys2Proof.Machine

/-- The operand check of one register operand (R85): the byte as it stands names a register below 8, and any other value
raises OutOfBounds(register, value). -/
def regOperand (v : Byte) : Except Exception (Fin 8) :=
  if h : v.toNat < 8 then .ok ⟨v.toNat, h⟩ else .error (.outOfBounds .register v.toNat)

/-- The operand check of two register operands, `a` first (R85). -/
def regOperands (a b : Byte) : Except Exception (Fin 8 × Fin 8) := do
  let ra ← regOperand a
  let rb ← regOperand b
  pure (ra, rb)

end Sys2Proof.Machine
end

