-- ==== Sys2Proof/Machine/Arith.lean ====
section
/-! DEFINITION. The arithmetic instructions: MUL, ADD, CMP (42_alu.md). -/

namespace Sys2Proof.Machine

/-- What the three have in common (R116 to R118): both operands are checked and read, the alu computes, the engine commits
its answer, and the pc advances by 3. -/
def aluInstr (op : AluOp) (a b : Byte) (s : State) : Except Exception State := do
  let (ra, rb) ← regOperands a b
  let out ← alu (aluSel op) (s.reg ra) (s.reg rb)
  pure ((s.applyAlu ra out).advance 3)

/-- MUL `a`, `b` (R116). -/
def execMul (a b : Byte) (s : State) : Host.Outcome State Fault Refusal :=
  finish s (aluInstr .multiply a b s)

/-- ADD `a`, `b` (R117). -/
def execAdd (a b : Byte) (s : State) : Host.Outcome State Fault Refusal :=
  finish s (aluInstr .add a b s)

/-- CMP `a`, `b` (R118). -/
def execCmp (a b : Byte) (s : State) : Host.Outcome State Fault Refusal :=
  finish s (aluInstr .compare a b s)

end Sys2Proof.Machine
end

