-- ==== Sys2Proof/Machine/Control.lean ====
section
/-! DEFINITION. Machine control, immediate load and output: HLT, LDI, PRN (41_machine_control.md). -/

namespace Sys2Proof.Machine

/-- HLT (R100). -/
def execHlt (s : State) : Host.Outcome State Fault Refusal :=
  finish s (.ok (s.advance 1).halt)

/-- LDI `a`, `b` (R101): `b` is the immediate. -/
def execLdi (a b : Byte) (s : State) : Host.Outcome State Fault Refusal :=
  finish s do
    let ra ← regOperand a
    pure ((s.setReg ra b).advance 3)

/-- PRN `a` (R102). -/
def execPrn (a : Byte) (s : State) : Host.Outcome State Fault Refusal :=
  finish s do
    let ra ← regOperand a
    pure ((s.emit (s.reg ra)).advance 2)

end Sys2Proof.Machine
end

