-- ==== Sys2Proof/Machine/Stack.lean ====
section
/-! DEFINITION. The stack instructions: PUSH, POP (43_stack.md). The statements run in the written order, each on the state
the one before left (R10, D8). -/

namespace Sys2Proof.Machine

/-- PUSH `a` (R131), for given parameters: the register is read after `SpDec()`. -/
def execPushWith (p : Params) (a : Byte) (s : State) : Host.Outcome State Fault Refusal :=
  finish s do
    let ra ← regOperand a
    let w ← spDec p s
    let w ← memWrite (w.reg p.spIndex).toNat (w.reg ra) w
    pure (w.advance 2)

/-- POP `a` (R132), for given parameters: the register is written before `SpInc()`. -/
def execPopWith (p : Params) (a : Byte) (s : State) : Host.Outcome State Fault Refusal :=
  finish s do
    let ra ← regOperand a
    let v ← memRead (s.reg p.spIndex).toNat s
    let w ← spInc p (s.setReg ra v)
    pure (w.advance 2)

/-- PUSH `a` (R131). -/
def execPush (a : Byte) (s : State) : Host.Outcome State Fault Refusal :=
  execPushWith Config.hardware a s

/-- POP `a` (R132). -/
def execPop (a : Byte) (s : State) : Host.Outcome State Fault Refusal :=
  execPopWith Config.hardware a s

end Sys2Proof.Machine
end

