-- ==== Sys2Proof/Machine/Transfer.lean ====
section
/-! DEFINITION. Control transfer: CALL, RET, JMP, JEQ, JNE (44_control_transfer.md). -/

namespace Sys2Proof.Machine

/-- CALL `a` (R140), for given parameters. `s.pc` is the address of the CALL's own opcode; the target register is read after
`SpDec()` (D8). -/
def execCallWith (p : Params) (a : Byte) (s : State) : Host.Outcome State Fault Refusal :=
  finish s do
    let ra ← regOperand a
    let ret := s.pc.toNat + 2
    if 255 < ret then .error (.outOfBounds .memory ret)
    else do
      let w ← spDec p s
      let w ← memWrite (w.reg p.spIndex).toNat (BitVec.ofNat 8 ret) w
      pure (w.jumpTo (w.reg ra))

/-- RET (R141), for given parameters. -/
def execRetWith (p : Params) (s : State) : Host.Outcome State Fault Refusal :=
  finish s do
    let t ← memRead (s.reg p.spIndex).toNat s
    let w ← spInc p s
    pure (w.jumpTo t)

/-- CALL `a` (R140). -/
def execCall (a : Byte) (s : State) : Host.Outcome State Fault Refusal :=
  execCallWith Config.hardware a s

/-- RET (R141). -/
def execRet (s : State) : Host.Outcome State Fault Refusal :=
  execRetWith Config.hardware s

/-- JMP `a` (R142). -/
def execJmp (a : Byte) (s : State) : Host.Outcome State Fault Refusal :=
  finish s do
    let ra ← regOperand a
    pure (s.jumpTo (s.reg ra))

/-- JEQ `a` (R143): the operand is checked whether or not the jump is taken (D19). -/
def execJeq (a : Byte) (s : State) : Host.Outcome State Fault Refusal :=
  finish s do
    let ra ← regOperand a
    pure (s.branchIf s.fl.E (s.reg ra) 2)

/-- JNE `a` (R144): the operand is checked whether or not the jump is taken (D19). -/
def execJne (a : Byte) (s : State) : Host.Outcome State Fault Refusal :=
  finish s do
    let ra ← regOperand a
    pure (s.branchIf (!s.fl.E) (s.reg ra) 2)

end Sys2Proof.Machine
end

