-- ==== Sys2Proof/Machine/Fetch.lean ====
section
/-! DEFINITION. The fetch_unit and the step every instruction shares (R80 to R85, R93, R95, 40_execution_cycle.md). -/

namespace Sys2Proof.Machine

/-- The fetch_unit's outputs (R95), the latches of R36: they live for one step only. -/
structure Latches where
  ir  : Byte
  opa : Byte
  opb : Byte
deriving DecidableEq, Repr

/-- The fetch with STRICT_PREFETCH = true (R81): three reads in order, each bound-checked. -/
def fetch (s : State) : Except Exception Latches := do
  let op ← memRead s.pc.toNat s
  let a ← memRead (s.pc.toNat + 1) s
  let b ← memRead (s.pc.toNat + 2) s
  pure ⟨op, a, b⟩

/-- Decode with its exception (R83): the mnemonic, or InvalidInstruction(op). -/
def decodeStage (p : Params) (op : Byte) : Except Exception Mnemonic :=
  match decodeOpcode p op with
  | some m => .ok m
  | none   => .error (.invalidInstruction op)

/-- A candidate operand with STRICT_PREFETCH = false (R82): one the instruction uses is bound-checked, and one it does not
use reads as 0 at 256 and above. -/
def lazyCandidate (used : Bool) (addr : Int) (s : State) : Except Exception Byte :=
  if used || inMemory addr then memRead addr s else .ok 0

/-- Stages (1) and (2) of R80, in the order of R166: with STRICT_PREFETCH = true all three reads come before decode (R81);
otherwise decode comes before the instruction's own operand bytes (R82). -/
def fetchDecode (p : Params) (s : State) : Except Exception Instr :=
  if p.strictPrefetch then do
    let l ← fetch s
    let m ← decodeStage p l.ir
    pure (assemble m l.opa l.opb)
  else do
    let op ← memRead s.pc.toNat s
    let m ← decodeStage p op
    let a ← lazyCandidate (decide (1 ≤ m.nops)) (s.pc.toNat + 1) s
    let b ← lazyCandidate (decide (2 ≤ m.nops)) (s.pc.toNat + 2) s
    pure (assemble m a b)

/-- One step over an executor (R80): no step in a terminal state (R93), then fetch and decode, then the instruction; an
exception of fetch or decode makes the fault entry of R165. -/
def cycle (p : Params) (run : Instr → State → Host.Outcome State Fault Refusal) (s : State) :
    Host.Outcome State Fault Refusal :=
  if s.halted then .fault .coreHalted
  else if s.faultCode ≠ .none then .fault .coreFaulted
  else
    match fetchDecode p s with
    | .error e => .next (enterFault e s)
    | .ok i    => run i s

/-- The bytes `bs` stored where the next step fetches: from the program counter up. -/
def storeAtPc (bs : List Byte) (s : State) : State :=
  { s with mem := s.mem.putList s.pc.toNat bs }

end Sys2Proof.Machine
end

