-- ==== Sys2Proof/Machine/Step.lean ====
section
/-! DEFINITION. One step of this hardware (R80, 40_execution_cycle.md). -/

namespace Sys2Proof.Machine

/-- One step of this hardware: every parameter of R6 at its default. -/
def step (s : State) : Host.Outcome State Fault Refusal := cycle Config.hardware exec s

/-- `s` with a word of spec/opcode_table.json stored where `step` fetches its next instruction: the three bytes a step
reads (R81), from the program counter up. It stands for the load of a program (R184; log entry 3). -/
def State.withFetchWord (s : State) (nbits w : Nat) : State := storeAtPc (tableBytes nbits w) s

end Sys2Proof.Machine
end

