-- ==== Sys2Proof/Machine/Param.lean ====
section
/-! DEFINITION. The core for any setting of the parameters of R6 (00_scope.md): "A model takes the ones marked "parameter" as
configuration arguments and assumes the default given." `step` is this at the defaults. -/

namespace Sys2Proof.Machine

/-- `exec` for given parameters: only the four instructions that use the stack pointer read one. -/
def execWith (p : Params) (i : Instr) (s : State) : Host.Outcome State Fault Refusal :=
  match i with
  | .hlt     => execHlt s
  | .ldi a b => execLdi a b s
  | .prn a   => execPrn a s
  | .mul a b => execMul a b s
  | .add a b => execAdd a b s
  | .cmp a b => execCmp a b s
  | .push a  => execPushWith p a s
  | .pop a   => execPopWith p a s
  | .call a  => execCallWith p a s
  | .ret     => execRetWith p s
  | .jmp a   => execJmp a s
  | .jeq a   => execJeq a s
  | .jne a   => execJne a s

/-- `step` for given parameters. -/
def stepWith (p : Params) (s : State) : Host.Outcome State Fault Refusal := cycle p (execWith p) s

end Sys2Proof.Machine
end

