-- ==== Sys2Proof/Machine/Platform.lean ====
section
/-! DEFINITION. The core's ports and what the host can do with them (R98, 40_execution_cycle.md; R180 to R186, R191,
70_reset_and_hazards.md). -/

namespace Sys2Proof.Machine

/-- The load port (R98, R184): one byte into one cell, and nothing else. -/
def loadByte (addr data : Byte) (s : State) : State := { s with mem := s.mem.put addr.toNat data }

/-- The load phase (R184): an image of at most 256 bytes goes to addresses 0 up; a larger one never reaches the core (D24). -/
def loadImage (image : List Byte) (s : State) : Option State :=
  if image.length ≤ 256 then some { s with mem := s.mem.putList 0 image } else none

/-- What the host can do to the core (R191). Reading the ports changes nothing and is no move. -/
inductive HostMove where
  /-- Assert `rst` (R180). -/
  | reset
  /-- Write one byte through the load port (R184). -/
  | load (addr data : Byte)
  /-- Let the core take one step, with `run` high (R186). -/
  | step
deriving DecidableEq, Repr

/-- The core and the phase the host is in: whether a step has been taken since reset (R184, R191). The
phase as a bit beside the core is DESIGN CHOICE (log entry 11). -/
structure System where
  core    : State
  started : Bool
deriving DecidableEq, Repr

/-- A host move (R191). `none`: the host must not write after the first step, and the model gives it no such move (log
entry 7). Where the core has no step, its state stays as it is (R93). -/
def System.apply (p : Params) : HostMove → System → Option System
  | .reset, _ => some ⟨State.resetWith p, false⟩
  | .load addr data, y => if y.started then none else some { y with core := loadByte addr data y.core }
  | .step, y =>
    match stepWith p y.core with
    | .next s'   => some ⟨s', true⟩
    | .fault _   => some y
    | .refused _ => some y

/-- The status outputs (R98). `fault_pc` and `fault_info` are unobservable while the code is 0 (R34, K9). -/
structure CorePorts where
  halted    : Bool
  faultCode : BitVec 2
  faultPc   : Option PcWord
  faultInfo : Option FaultInfo
deriving DecidableEq, Repr

/-- The status outputs of a state. -/
def State.ports (s : State) : CorePorts where
  halted := s.halted
  faultCode := s.faultCode.bits
  faultPc := if s.faultCode = .none then none else some s.faultPc
  faultInfo := if s.faultCode = .none then none else some s.faultInfo

/-- The `out_valid`/`out_data` events of a step from `s` to `t`: the values the step appended (R98, R102). -/
def outEvents (s t : State) : List Byte := t.output.drop s.output.length

end Sys2Proof.Machine
end

