-- ==== Sys2Proof/Safety.lean ====
section
/-! DEFINITION. What counts as a safe state and how a run ends (R80, 40_execution_cycle.md; R192, 70_reset_and_hazards.md). -/

namespace Sys2Proof.Machine

/-- The three states of the execution engine (R80), with the two terminal ones as the ends of a run (R192). -/
inductive RunStatus where
  | running | endedWell | endedBadly
deriving DecidableEq, Repr

/-- R192: a run has ended badly when `fault_code` is not 0, and well when `halted` is 1 and `fault_code` is 0. -/
def State.status (s : State) : RunStatus :=
  if s.faultCode ≠ .none then .endedBadly
  else if s.halted then .endedWell
  else .running

/-- The core is Running (R80): "defined only when s.halted = 0 and s.fault_code = 0". -/
abbrev State.Running (s : State) : Prop := s.halted = false ∧ s.faultCode = .none

/-- The state R165 (60_exceptions.md) gives a step of `s` that raises: code, pc and info recorded, nothing else changed. -/
def State.faultedWith (s : State) (code : FaultCode) (info : FaultInfo) : State :=
  { s with faultCode := code, faultPc := s.pc, faultInfo := info }

/-- The fault status says what a fault of this hardware can say (R161 to R163), about the instruction at `pc` (R165). -/
def State.faultRecordOk (s : State) : Prop :=
  match s.faultCode, s.faultInfo with
  | .none, _ => True
  | .outOfBounds, .bound .memory v => s.faultPc = s.pc ∧ v = 256 ∧ 254 ≤ s.pc.toNat
  | .outOfBounds, .bound .register v => s.faultPc = s.pc ∧ 8 ≤ v ∧ v ≤ 255
  | .outOfBounds, .bound .stack v => s.faultPc = s.pc ∧ (v = -1 ∨ v = 256)
  | .invalidInstruction, .opcode op =>
    s.faultPc = s.pc ∧ op = s.mem.get s.pc.toNat ∧ decodeOpcode Config.hardware op = none
  | _, _ => False

/-- The flags are as reset leaves them, or exactly one is set (R30). -/
def Flags.ok (f : Flags) : Prop :=
  f = Config.hardware.flReset ∨ f = ⟨true, false, false⟩ ∨ f = ⟨false, true, false⟩ ∨ f = ⟨false, false, true⟩

/-- The invariant of this hardware. -/
structure State.Inv (s : State) : Prop where
  /-- Memory is in its canonical form. -/
  memWf : s.mem.wf = true
  /-- The program counter holds 0..256 (R27). -/
  pcRange : s.pc.toNat ≤ 256
  /-- Never two flags at once (R30). -/
  flags : Flags.ok s.fl
  /-- A halted core is not faulted (R167, R192). -/
  oneEnd : s.halted = true → s.faultCode = .none
  /-- A halted core's pc is one past an HLT byte, which lay at 253 or below (R81, R92, R100). -/
  haltedPastHlt : s.halted = true → 1 ≤ s.pc.toNat ∧ s.pc.toNat ≤ 254 ∧ s.mem.get (s.pc.toNat - 1) = 0x01
  /-- The fault status is that of a fault this hardware can raise (R161 to R165). -/
  faultRecord : s.faultRecordOk

/-- The invariant of the core with its host: the core's own, and before the first step the core is Running (R183, R184). -/
structure System.Inv (y : System) : Prop where
  core : y.core.Inv
  fresh : y.started = false → y.core.Running

/-- The states of a run: some image of at most 256 bytes is loaded after reset (R184), and then the core steps (R186). -/
inductive Reachable : State → Prop where
  | loaded (image : List Byte) (s : State) (h : loadImage image State.reset = some s) : Reachable s
  | stepped (s t : State) (hs : Reachable s) (h : step s = .next t) : Reachable t

end Sys2Proof.Machine
end

