-- ==== Sys2Proof/Certificates/Slice0/Obligations.lean ====
section
/-! DEFINITION. The statements for the provers. Opcode bytes, the stack pointer's index, the order of effects, the bounds of
the stack pointer and the fault record are the spec's own decisions (D1, D2, D7, D8, D11 of 92_eei_decisions.md) as its
numbered rules state them; what rests on a choice of the model says so. -/

open Sys2Proof Sys2Proof.Machine

/-! ### Encoding -/

/-- Words written out byte by byte from the encodings of R63 and R60, one of each family and format, decode to the instruction
they stand for, and the bytes after them are left. -/
def Obligations.WrittenWordsDecode : Prop :=
  decode Config.hardware [0x01, 0xFF] = .ok (.hlt, [0xFF]) ∧
  decode Config.hardware [0x82, 0x00, 0x08] = .ok (.ldi 0 8, []) ∧
  decode Config.hardware [0x47, 0x02, 0xFF] = .ok (.prn 2, [0xFF]) ∧
  decode Config.hardware [0xA0, 0x00, 0x01] = .ok (.add 0 1, []) ∧
  decode Config.hardware [0xA7, 0x03, 0x00] = .ok (.cmp 3 0, []) ∧
  decode Config.hardware [0x45, 0x07] = .ok (.push 7, []) ∧
  decode Config.hardware [0x50, 0x01] = .ok (.call 1, []) ∧
  decode Config.hardware [0x11] = .ok (.ret, []) ∧
  decode Config.hardware [0x56, 0x03] = .ok (.jne 3, [])

/-- R84 and the table of R63: the decoder's outputs for each of the thirteen opcode bytes. -/
def Obligations.DecoderOutputsOfEveryOpcode : Prop :=
  decoder Config.hardware 0x01 = .ok ⟨.hlt, 1, 0, .advance, none, true⟩ ∧
  decoder Config.hardware 0x82 = .ok ⟨.ldi, 3, 2, .advance, none, false⟩ ∧
  decoder Config.hardware 0x47 = .ok ⟨.prn, 2, 1, .advance, none, false⟩ ∧
  decoder Config.hardware 0xA2 = .ok ⟨.mul, 3, 2, .advance, some .multiply, false⟩ ∧
  decoder Config.hardware 0xA0 = .ok ⟨.add, 3, 2, .advance, some .add, false⟩ ∧
  decoder Config.hardware 0xA7 = .ok ⟨.cmp, 3, 2, .advance, some .compare, false⟩ ∧
  decoder Config.hardware 0x45 = .ok ⟨.push, 2, 1, .advance, none, false⟩ ∧
  decoder Config.hardware 0x46 = .ok ⟨.pop, 2, 1, .advance, none, false⟩ ∧
  decoder Config.hardware 0x50 = .ok ⟨.call, 2, 1, .set, none, false⟩ ∧
  decoder Config.hardware 0x11 = .ok ⟨.ret, 1, 0, .set, none, false⟩ ∧
  decoder Config.hardware 0x54 = .ok ⟨.jmp, 2, 1, .set, none, false⟩ ∧
  decoder Config.hardware 0x55 = .ok ⟨.jeq, 2, 1, .conditional, none, false⟩ ∧
  decoder Config.hardware 0x56 = .ok ⟨.jne, 2, 1, .conditional, none, false⟩

/-- For every injective opcode map (D1, K13), every instruction with every value of its operand bytes, and every bytes after
it: decoding its encoding gives it back and leaves those bytes. -/
def Obligations.DecodeOfEncodeIsTheInstruction : Prop :=
  ∀ (p : Params), p.InjectiveOpcodes → ∀ (i : Instr) (rest : List Byte), decode p (encode p i ++ rest) = .ok (i, rest)

/-- For every opcode map: bytes that decode are the encoding of the instruction they decode to, followed by what is left. -/
def Obligations.EncodeOfDecodeIsTheBytes : Prop :=
  ∀ (p : Params) (bs rest : List Byte) (i : Instr), decode p bs = .ok (i, rest) → bs = encode p i ++ rest

/-- R162: a running core whose three fetches are in range, and whose opcode byte is none of the thirteen of R63, enters
Faulted with InvalidInstruction and that byte; there are 243 such bytes and 0x00 is one. -/
def Obligations.UnlistedOpcodeRaisesInvalidInstruction : Prop :=
  (∀ (s : State) (op : Byte), s.Running → s.pc.toNat ≤ 253 → s.mem.get s.pc.toNat = op →
    op ∉ ([0x01, 0x82, 0x47, 0xA2, 0xA0, 0xA7, 0x45, 0x46, 0x50, 0x11, 0x54, 0x55, 0x56] : List Byte) →
    step s = .next (s.faultedWith .invalidInstruction (.opcode op))) ∧
  ((List.range 256).filter fun n => (decodeOpcode Config.hardware (BitVec.ofNat 8 n)).isNone).length = 243 ∧
  decodeOpcode Config.hardware 0x00 = none ∧
  FaultCode.bits .invalidInstruction = 2

/-! ### The step -/

/-- A step runs the decoded instruction: on a running core with its three fetches in range, if the bytes at the program counter
decode to `i`, the step is `exec i`. `exec` itself moves the pc (R87); the step adds nothing. -/
def Obligations.StepRunsTheDecodedInstruction : Prop :=
  ∀ (s : State) (i : Instr) (rest : List Byte), s.Running → s.pc.toNat ≤ 253 →
    decode Config.hardware [s.mem.get s.pc.toNat, s.mem.get (s.pc.toNat + 1), s.mem.get (s.pc.toNat + 2)] = .ok (i, rest) →
    step s = exec i s

/-- R81: the fetch reads the bytes at pc, pc + 1 and pc + 2, whatever the opcode is; a step of a running core raises
OutOfBounds(memory, pc + k) for the first k in 0, 1, 2 with pc + k >= 256; a step that ends without a fault began at 253 or
below. -/
def Obligations.FetchRaisesForTheFirstByteOutOfRange : Prop :=
  (∀ s : State, s.pc.toNat ≤ 253 →
    fetch s = .ok ⟨s.mem.get s.pc.toNat, s.mem.get (s.pc.toNat + 1), s.mem.get (s.pc.toNat + 2)⟩) ∧
  (∀ (s : State) (k : Nat), s.Running → k ≤ 2 → 256 ≤ s.pc.toNat + k → (∀ j, j < k → s.pc.toNat + j < 256) →
    step s = .next (s.faultedWith .outOfBounds (.bound .memory (s.pc.toNat + k)))) ∧
  (∀ (s t : State), step s = .next t → t.faultCode = .none → s.pc.toNat ≤ 253)

/-- R82, the setting STRICT_PREFETCH = false: the opcode fetch is bound-checked first; after decode an instruction all of
whose own bytes are in range executes, with any byte past its own that lies at 256 or above read as 0; otherwise
OutOfBounds(memory, pc + k) is raised for its first own byte at 256 or above. -/
def Obligations.LazyFetchChecksOnlyTheOwnBytes : Prop :=
  ∀ (p : Params) (s : State), p.strictPrefetch = false → s.Running →
    (256 ≤ s.pc.toNat → stepWith p s = .next (s.faultedWith .outOfBounds (.bound .memory s.pc.toNat))) ∧
    (s.pc.toNat < 256 → decodeOpcode p (s.mem.get s.pc.toNat) = none →
      stepWith p s = .next (s.faultedWith .invalidInstruction (.opcode (s.mem.get s.pc.toNat)))) ∧
    (∀ m, s.pc.toNat < 256 → decodeOpcode p (s.mem.get s.pc.toNat) = some m →
      (s.pc.toNat + m.length - 1 ≤ 255 →
        stepWith p s = execWith p (assemble m
          (if s.pc.toNat + 1 < 256 then s.mem.get (s.pc.toNat + 1) else 0)
          (if s.pc.toNat + 2 < 256 then s.mem.get (s.pc.toNat + 2) else 0)) s) ∧
      (∀ k, 1 ≤ k → k < m.length → 256 ≤ s.pc.toNat + k → (∀ j, j < k → s.pc.toNat + j < 256) →
        stepWith p s = .next (s.faultedWith .outOfBounds (.bound .memory (s.pc.toNat + k)))))

/-- R66: a candidate byte past the instruction's own length has no effect on which instruction runs, whatever value it
holds: with any byte put there, the step still runs the same instruction (on the memory that holds that byte). -/
def Obligations.UnusedCandidateBytesAreIgnored : Prop :=
  ∀ (s : State) (m : Mnemonic) (k : Nat) (v : Byte), s.Running → s.mem.wf = true → s.pc.toNat ≤ 253 →
    decodeOpcode Config.hardware (s.mem.get s.pc.toNat) = some m → m.length ≤ k → k ≤ 2 →
    ∃ i, i.mnemonic = m ∧ step s = exec i s ∧
      step { s with mem := s.mem.put (s.pc.toNat + k) v } = exec i { s with mem := s.mem.put (s.pc.toNat + k) v }

/-- R80, R93 and R192: a core has a next state exactly when it is Running, and the states without one are the two ends of a
run. In the terminal states `step` answers the model's named stops (log entry 1, the model's choice). -/
def Obligations.StepsExactlyWhileRunning : Prop :=
  (∀ s : State, (∃ t, step s = .next t) ↔ s.Running) ∧
  (∀ s : State, (∀ t, step s ≠ .next t) ↔ s.status = .endedWell ∨ s.status = .endedBadly) ∧
  (∀ s : State, s.halted = true → step s = .fault .coreHalted) ∧
  (∀ s : State, s.halted = false → s.faultCode ≠ .none → step s = .fault .coreFaulted)

/-- R85: before anything else of an instruction, its register operands are checked in order, and the first that names no
register raises OutOfBounds(register, value), whatever the rest of the state is; the operands checked are `a` of LDI, PRN,
PUSH, POP, CALL, JMP, JEQ, JNE, `a` then `b` of MUL, ADD, CMP, and none of HLT and RET; and with all of them below 8 the only
faults left to the execute stage are the stack-pointer bound and CALL's return-address bound (at 254 and above, where this
hardware's fetch lets no CALL run). -/
def Obligations.OperandCheckComesFirstAndInOrder : Prop :=
  (∀ (i : Instr) (s : State) (v : Byte), i.registerOperands.find? (fun x => decide (8 ≤ x.toNat)) = some v →
    exec i s = .next (s.faultedWith .outOfBounds (.bound .register v.toNat))) ∧
  (∀ a b : Byte, (Instr.ldi a b).registerOperands = [a] ∧ (Instr.prn a).registerOperands = [a] ∧
    (Instr.push a).registerOperands = [a] ∧ (Instr.pop a).registerOperands = [a] ∧
    (Instr.call a).registerOperands = [a] ∧ (Instr.jmp a).registerOperands = [a] ∧
    (Instr.jeq a).registerOperands = [a] ∧ (Instr.jne a).registerOperands = [a] ∧
    (Instr.mul a b).registerOperands = [a, b] ∧ (Instr.add a b).registerOperands = [a, b] ∧
    (Instr.cmp a b).registerOperands = [a, b] ∧
    Instr.hlt.registerOperands = [] ∧ Instr.ret.registerOperands = []) ∧
  (∀ (i : Instr) (s t : State), s.Running → i.wellFormed = true → exec i s = .next t → t.faultCode ≠ .none →
    (∃ v, t = s.faultedWith .outOfBounds (.bound .stack v)) ∨
    (254 ≤ s.pc.toNat ∧ (∃ a, i = .call a) ∧ t = s.faultedWith .outOfBounds (.bound .memory (s.pc.toNat + 2))))

/-- R166 at the default parameters: a fetch fault outranks an invalid opcode, which outranks a register operand, which
outranks the instruction's own statements; and of those only the stack-pointer bound is left to raise. -/
def Obligations.OneFaultPerStepInPriorityOrder : Prop :=
  ∀ (s : State), s.Running →
    (254 ≤ s.pc.toNat → s.pc.toNat ≤ 256 → step s = .next (s.faultedWith .outOfBounds (.bound .memory 256))) ∧
    (s.pc.toNat ≤ 253 → decodeOpcode Config.hardware (s.mem.get s.pc.toNat) = none →
      step s = .next (s.faultedWith .invalidInstruction (.opcode (s.mem.get s.pc.toNat)))) ∧
    (∀ (m : Mnemonic) (i : Instr), s.pc.toNat ≤ 253 → decodeOpcode Config.hardware (s.mem.get s.pc.toNat) = some m →
      i = assemble m (s.mem.get (s.pc.toNat + 1)) (s.mem.get (s.pc.toNat + 2)) →
      (∀ v, i.registerOperands.find? (fun x => decide (8 ≤ x.toNat)) = some v →
        step s = .next (s.faultedWith .outOfBounds (.bound .register v.toNat))) ∧
      (i.wellFormed = true → ∀ t, step s = .next t → t.faultCode ≠ .none →
        t = s.faultedWith .outOfBounds (.bound .stack (-1)) ∨ t = s.faultedWith .outOfBounds (.bound .stack 256)))

/-! ### One rule per instruction: encoding, effect, exceptions -/

/-- R100, HLT: opcode 0x01; `pc` one past the HLT byte and `halted` 1, nothing else; whatever bytes follow it; a fetch fault at
0xFE and 0xFF instead; and no step after it. -/
def Obligations.HltHaltsOnePastItsByte : Prop :=
  encode Config.hardware .hlt = [0x01] ∧
  (∀ s : State, exec .hlt s = .next { s with pc := BitVec.ofNat 9 (s.pc.toNat + 1), halted := true }) ∧
  (∀ s : State, s.Running → s.mem.get s.pc.toNat = 0x01 → s.pc.toNat ≤ 253 →
    step s = .next { s with pc := BitVec.ofNat 9 (s.pc.toNat + 1), halted := true }) ∧
  (∀ s : State, s.Running → s.mem.get s.pc.toNat = 0x01 → s.pc = 254 ∨ s.pc = 255 →
    step s = .next (s.faultedWith .outOfBounds (.bound .memory 256))) ∧
  (∀ s t : State, exec .hlt s = .next t → ∀ u, step t ≠ .next u)

/-- R101, LDI: opcode 0x82; register `a` gets the immediate `b` as it stands and `pc` advances by 3; `a >= 8` raises
OutOfBounds(register, a). -/
def Obligations.LdiLoadsTheImmediate : Prop :=
  ∀ (s : State) (a b : Byte),
    encode Config.hardware (.ldi a b) = [0x82, a, b] ∧
    (∀ _h : a.toNat < 8, exec (.ldi a b) s =
      .next { s with regs := s.regs.set a.toNat b, pc := BitVec.ofNat 9 (s.pc.toNat + 3) }) ∧
    (8 ≤ a.toNat → exec (.ldi a b) s = .next (s.faultedWith .outOfBounds (.bound .register a.toNat)))

/-- R102, PRN: opcode 0x47; the value of register `a` is appended to the output, one output event, and `pc` advances by 2;
`a >= 8` raises OutOfBounds(register, a) and emits nothing. -/
def Obligations.PrnEmitsTheRegister : Prop :=
  ∀ (s : State) (a : Byte),
    encode Config.hardware (.prn a) = [0x47, a] ∧
    (∀ _h : a.toNat < 8, exec (.prn a) s =
        .next { s with output := s.output ++ [s.regs[a.toNat]], pc := BitVec.ofNat 9 (s.pc.toNat + 2) } ∧
      ∀ t, exec (.prn a) s = .next t → outEvents s t = [s.regs[a.toNat]]) ∧
    (8 ≤ a.toNat → exec (.prn a) s = .next (s.faultedWith .outOfBounds (.bound .register a.toNat)) ∧
      ∀ t, exec (.prn a) s = .next t → outEvents s t = [])

/-- R116, MUL: opcode 0xA2; register `a` gets the exact product modulo 256, both operands read first, and `pc` advances by 3;
no flag is written; a register index of 8 or more raises, `a` before `b`. -/
def Obligations.MulMultipliesModulo256 : Prop :=
  ∀ (s : State) (a b : Byte),
    encode Config.hardware (.mul a b) = [0xA2, a, b] ∧
    (∀ (_ha : a.toNat < 8) (_hb : b.toNat < 8), exec (.mul a b) s =
      .next { s with
        regs := s.regs.set a.toNat (BitVec.ofNat 8 ((s.regs[a.toNat].toNat * s.regs[b.toNat].toNat) % 256)),
        pc := BitVec.ofNat 9 (s.pc.toNat + 3) }) ∧
    (8 ≤ a.toNat → exec (.mul a b) s = .next (s.faultedWith .outOfBounds (.bound .register a.toNat))) ∧
    (a.toNat < 8 → 8 ≤ b.toNat → exec (.mul a b) s = .next (s.faultedWith .outOfBounds (.bound .register b.toNat)))

/-- R117, ADD: opcode 0xA0; register `a` gets the exact sum modulo 256, both operands read first, and `pc` advances by 3; no
flag is written; a register index of 8 or more raises, `a` before `b`. -/
def Obligations.AddAddsModulo256 : Prop :=
  ∀ (s : State) (a b : Byte),
    encode Config.hardware (.add a b) = [0xA0, a, b] ∧
    (∀ (_ha : a.toNat < 8) (_hb : b.toNat < 8), exec (.add a b) s =
      .next { s with
        regs := s.regs.set a.toNat (BitVec.ofNat 8 ((s.regs[a.toNat].toNat + s.regs[b.toNat].toNat) % 256)),
        pc := BitVec.ofNat 9 (s.pc.toNat + 3) }) ∧
    (8 ≤ a.toNat → exec (.add a b) s = .next (s.faultedWith .outOfBounds (.bound .register a.toNat))) ∧
    (a.toNat < 8 → 8 ≤ b.toNat → exec (.add a b) s = .next (s.faultedWith .outOfBounds (.bound .register b.toNat)))

/-- R118, CMP: opcode 0xA7; FL becomes exactly one of E, G, L by the unsigned comparison of the two registers, whatever it was,
no register changes, and `pc` advances by 3; a register index of 8 or more raises, `a` before `b`. -/
def Obligations.CmpSetsExactlyOneFlag : Prop :=
  ∀ (s : State) (a b : Byte),
    encode Config.hardware (.cmp a b) = [0xA7, a, b] ∧
    (∀ (_ha : a.toNat < 8) (_hb : b.toNat < 8),
      (s.regs[a.toNat].toNat = s.regs[b.toNat].toNat → exec (.cmp a b) s =
        .next { s with fl := ⟨true, false, false⟩, pc := BitVec.ofNat 9 (s.pc.toNat + 3) }) ∧
      (s.regs[b.toNat].toNat < s.regs[a.toNat].toNat → exec (.cmp a b) s =
        .next { s with fl := ⟨false, true, false⟩, pc := BitVec.ofNat 9 (s.pc.toNat + 3) }) ∧
      (s.regs[a.toNat].toNat < s.regs[b.toNat].toNat → exec (.cmp a b) s =
        .next { s with fl := ⟨false, false, true⟩, pc := BitVec.ofNat 9 (s.pc.toNat + 3) })) ∧
    (8 ≤ a.toNat → exec (.cmp a b) s = .next (s.faultedWith .outOfBounds (.bound .register a.toNat))) ∧
    (a.toNat < 8 → 8 ≤ b.toNat → exec (.cmp a b) s = .next (s.faultedWith .outOfBounds (.bound .register b.toNat)))

/-- R131, PUSH: opcode 0x45; R7 is decremented, then register `a`, read after that, is stored at the new R7, and `pc` advances
by 2; R7 = 0 raises OutOfBounds(stack, -1), and `a >= 8` raises OutOfBounds(register, a) before it. -/
def Obligations.PushStoresBelowTheStackPointer : Prop :=
  ∀ (s : State) (a : Byte),
    encode Config.hardware (.push a) = [0x45, a] ∧
    (∀ _h : a.toNat < 8, s.regs[7] ≠ 0 → exec (.push a) s =
      .next { s with
        regs := s.regs.set 7 (s.regs[7] - 1),
        mem := s.mem.put (s.regs[7] - 1).toNat (s.regs.set 7 (s.regs[7] - 1))[a.toNat],
        pc := BitVec.ofNat 9 (s.pc.toNat + 2) }) ∧
    (a.toNat < 8 → s.regs[7] = 0 → exec (.push a) s = .next (s.faultedWith .outOfBounds (.bound .stack (-1)))) ∧
    (8 ≤ a.toNat → exec (.push a) s = .next (s.faultedWith .outOfBounds (.bound .register a.toNat)))

/-- R132, POP: opcode 0x46; register `a` gets the byte at R7, then R7 is incremented (for `POP R7`, the popped value is), and
`pc` advances by 2; an increment from 255 raises OutOfBounds(stack, 256), and `a >= 8` raises OutOfBounds(register, a) before
it. -/
def Obligations.PopLoadsFromTheStackPointer : Prop :=
  ∀ (s : State) (a : Byte),
    encode Config.hardware (.pop a) = [0x46, a] ∧
    (∀ _h : a.toNat < 8, a ≠ 7 → s.regs[7] ≠ 255 → exec (.pop a) s =
      .next { s with
        regs := (s.regs.set a.toNat (s.mem.get s.regs[7].toNat)).set 7 (s.regs[7] + 1),
        pc := BitVec.ofNat 9 (s.pc.toNat + 2) }) ∧
    (s.mem.get s.regs[7].toNat ≠ 255 → exec (.pop 7) s =
      .next { s with
        regs := s.regs.set 7 (s.mem.get s.regs[7].toNat + 1),
        pc := BitVec.ofNat 9 (s.pc.toNat + 2) }) ∧
    (a.toNat < 8 → a ≠ 7 → s.regs[7] = 255 → exec (.pop a) s = .next (s.faultedWith .outOfBounds (.bound .stack 256))) ∧
    (s.mem.get s.regs[7].toNat = 255 → exec (.pop 7) s = .next (s.faultedWith .outOfBounds (.bound .stack 256))) ∧
    (8 ≤ a.toNat → exec (.pop a) s = .next (s.faultedWith .outOfBounds (.bound .register a.toNat)))

/-- R140, CALL: opcode 0x50; the return address `pc + 2` is stored at the decremented R7, and `pc` gets register `a`, read
after the decrement; `a >= 8` raises OutOfBounds(register, a), then a return address above 255 raises
OutOfBounds(memory, pc + 2), then R7 = 0 raises OutOfBounds(stack, -1); on this hardware a CALL that a step runs is at 253
or below, so its return address never raises. -/
def Obligations.CallPushesTheReturnAddress : Prop :=
  ∀ (s : State) (a : Byte),
    encode Config.hardware (.call a) = [0x50, a] ∧
    (∀ _h : a.toNat < 8, s.pc.toNat ≤ 253 → s.regs[7] ≠ 0 → exec (.call a) s =
      .next { s with
        regs := s.regs.set 7 (s.regs[7] - 1),
        mem := s.mem.put (s.regs[7] - 1).toNat (BitVec.ofNat 8 (s.pc.toNat + 2)),
        pc := BitVec.ofNat 9 (s.regs.set 7 (s.regs[7] - 1))[a.toNat].toNat }) ∧
    (8 ≤ a.toNat → exec (.call a) s = .next (s.faultedWith .outOfBounds (.bound .register a.toNat))) ∧
    (a.toNat < 8 → 254 ≤ s.pc.toNat →
      exec (.call a) s = .next (s.faultedWith .outOfBounds (.bound .memory (s.pc.toNat + 2)))) ∧
    (a.toNat < 8 → s.pc.toNat ≤ 253 → s.regs[7] = 0 →
      exec (.call a) s = .next (s.faultedWith .outOfBounds (.bound .stack (-1)))) ∧
    (s.Running → s.mem.get s.pc.toNat = 0x50 → s.pc.toNat ≤ 253 → ∀ v,
      step s ≠ .next (s.faultedWith .outOfBounds (.bound .memory v)))

/-- R141, RET: opcode 0x11; `pc` gets the byte at R7 and R7 is incremented; the popped cell keeps its value; R7 = 255 raises
OutOfBounds(stack, 256). -/
def Obligations.RetPopsTheProgramCounter : Prop :=
  encode Config.hardware .ret = [0x11] ∧
  (∀ s : State, s.regs[7] ≠ 255 → exec .ret s =
    .next { s with
      regs := s.regs.set 7 (s.regs[7] + 1),
      pc := BitVec.ofNat 9 (s.mem.get s.regs[7].toNat).toNat }) ∧
  (∀ s : State, s.regs[7] = 255 → exec .ret s = .next (s.faultedWith .outOfBounds (.bound .stack 256)))

/-- R142, JMP: opcode 0x54; `pc` gets register `a`, any value of it; `a >= 8` raises OutOfBounds(register, a). -/
def Obligations.JmpSetsTheProgramCounter : Prop :=
  ∀ (s : State) (a : Byte),
    encode Config.hardware (.jmp a) = [0x54, a] ∧
    (∀ _h : a.toNat < 8, exec (.jmp a) s = .next { s with pc := BitVec.ofNat 9 s.regs[a.toNat].toNat }) ∧
    (8 ≤ a.toNat → exec (.jmp a) s = .next (s.faultedWith .outOfBounds (.bound .register a.toNat)))

/-- R143, JEQ: opcode 0x55; `pc` gets register `a` if FL.E is 1 and advances by 2 otherwise, whatever G and L are; `a >= 8`
raises OutOfBounds(register, a), taken or not; after reset it is not taken. -/
def Obligations.JeqJumpsWhenEqual : Prop :=
  (∀ (s : State) (a : Byte),
    encode Config.hardware (.jeq a) = [0x55, a] ∧
    (∀ _h : a.toNat < 8,
      (s.fl.E = true → exec (.jeq a) s = .next { s with pc := BitVec.ofNat 9 s.regs[a.toNat].toNat }) ∧
      (s.fl.E = false → exec (.jeq a) s = .next { s with pc := BitVec.ofNat 9 (s.pc.toNat + 2) })) ∧
    (8 ≤ a.toNat → exec (.jeq a) s = .next (s.faultedWith .outOfBounds (.bound .register a.toNat)))) ∧
  State.reset.fl.E = false

/-- R144, JNE: opcode 0x56; `pc` gets register `a` if FL.E is 0 and advances by 2 otherwise, whatever G and L are; `a >= 8`
raises OutOfBounds(register, a), taken or not; after reset it is taken. -/
def Obligations.JneJumpsWhenNotEqual : Prop :=
  (∀ (s : State) (a : Byte),
    encode Config.hardware (.jne a) = [0x56, a] ∧
    (∀ _h : a.toNat < 8,
      (s.fl.E = false → exec (.jne a) s = .next { s with pc := BitVec.ofNat 9 s.regs[a.toNat].toNat }) ∧
      (s.fl.E = true → exec (.jne a) s = .next { s with pc := BitVec.ofNat 9 (s.pc.toNat + 2) })) ∧
    (8 ≤ a.toNat → exec (.jne a) s = .next (s.faultedWith .outOfBounds (.bound .register a.toNat)))) ∧
  State.reset.fl.E = false

/-! ### Rules about the whole machine -/

/-- R87: after an instruction that raises nothing, the pc is what its policy says: exactly `pc + length` for Advance; the
target for Set, which is `x[a]` for CALL and JMP (read after CALL's decrement) and the byte at SP for RET; and for
Conditional `x[a]` if the condition holds and exactly `pc + 2` otherwise. Premise: the pc is in 0..256 (R27). -/
def Obligations.NextPcFollowsThePolicy : Prop :=
  ∀ (i : Instr) (s t : State), s.pc.toNat ≤ 256 → exec i s = .next t → t.faultCode = .none →
    (i.mnemonic.pcPolicy = .advance → t.pc.toNat = s.pc.toNat + i.mnemonic.length) ∧
    (∀ a : Byte, i = .jmp a → ∃ _h : a.toNat < 8, t.pc.toNat = s.regs[a.toNat].toNat) ∧
    (∀ a : Byte, i = .call a → ∃ _h : a.toNat < 8, t.pc.toNat = (s.regs.set 7 (s.regs[7] - 1))[a.toNat].toNat) ∧
    (i = .ret → t.pc.toNat = (s.mem.get s.regs[7].toNat).toNat) ∧
    (∀ a : Byte, i = .jeq a → ∃ _h : a.toNat < 8,
      t.pc.toNat = if s.fl.E = true then s.regs[a.toNat].toNat else s.pc.toNat + 2) ∧
    (∀ a : Byte, i = .jne a → ∃ _h : a.toNat < 8,
      t.pc.toNat = if s.fl.E = false then s.regs[a.toNat].toNat else s.pc.toNat + 2)

/-- R29: only CMP writes FL; only JEQ and JNE read it, and they read only E. The second half compares two runs: from states
that differ in FL alone an instruction gives states that differ in FL alone, for JEQ and JNE if E is the same in both. -/
def Obligations.FlagsWrittenByCmpReadByJumps : Prop :=
  (∀ (i : Instr) (s t : State), exec i s = .next t → t.fl ≠ s.fl → ∃ a b, i = .cmp a b) ∧
  (∀ (i : Instr) (s t : State) (f : Flags), exec i s = .next t →
    ((∀ a, i ≠ .jeq a ∧ i ≠ .jne a) ∨ f.E = s.fl.E) →
    ∃ u, exec i { s with fl := f } = .next u ∧ { u with fl := t.fl } = t)

/-- R32: the halted flag is 0 after reset, is set only by HLT, and once it is 1 the core takes no further step. -/
def Obligations.OnlyHltSetsHalted : Prop :=
  State.reset.halted = false ∧
  (∀ (i : Instr) (s t : State), exec i s = .next t → t.halted ≠ s.halted → i = .hlt ∧ t.halted = true) ∧
  (∀ s t : State, step s = .next t → t.halted = true → s.halted = false ∧ s.mem.get s.pc.toNat = 0x01) ∧
  (∀ s t : State, s.halted = true → step s ≠ .next t)

/-- R33: the output stream is empty after reset, and only PRN changes it, by appending the 8-bit value of its register. -/
def Obligations.OnlyPrnAppendsToOutput : Prop :=
  State.reset.output = [] ∧
  (∀ (i : Instr) (s t : State), exec i s = .next t → t.output ≠ s.output →
    ∃ a : Byte, ∃ _h : a.toNat < 8, i = .prn a ∧ t.output = s.output ++ [s.regs[a.toNat]])

/-- R165, with the fault status of R34: a step either leaves the fault status as it was, with code 0, or enters Faulted, and
then it is the fault entry of one exception: its code, the pc and its info are recorded and nothing else changes. The codes
are 0 to 3, the code is 0 after reset, a faulted core takes no further step, and the status ports present the record. -/
def Obligations.FaultEntryRecordsAndChangesNothingElse : Prop :=
  (∀ s t : State, step s = .next t →
    (t.faultCode = .none ∧ t.faultPc = s.faultPc ∧ t.faultInfo = s.faultInfo) ∨
    (∃ e : Exception, e.code ≠ .none ∧ t = s.faultedWith e.code e.info)) ∧
  (∀ k v, Exception.code (.outOfBounds k v) = .outOfBounds ∧ Exception.info (.outOfBounds k v) = .bound k v) ∧
  (∀ op, Exception.code (.invalidInstruction op) = .invalidInstruction ∧
    Exception.info (.invalidInstruction op) = .opcode op) ∧
  (∀ sel, Exception.code (.unsupportedOperation sel) = .unsupportedOperation ∧
    Exception.info (.unsupportedOperation sel) = .selector sel) ∧
  (FaultCode.bits .none = 0 ∧ FaultCode.bits .outOfBounds = 1 ∧ FaultCode.bits .invalidInstruction = 2 ∧
    FaultCode.bits .unsupportedOperation = 3) ∧
  State.reset.faultCode = .none ∧
  (∀ s t : State, s.faultCode ≠ .none → step s ≠ .next t) ∧
  (∀ s : State, s.faultCode ≠ .none → s.ports.faultCode = s.faultCode.bits ∧ s.ports.faultPc = some s.faultPc ∧
    s.ports.faultInfo = some s.faultInfo)

/-- R115: the alu raises UnsupportedOperation(3) for selector 3, the decoder never sends it, and no step of any setting of the
parameters raises it. -/
def Obligations.UnsupportedOperationIsUnreachable : Prop :=
  (∀ a b : Byte, alu 3 a b = .error (.unsupportedOperation 3)) ∧
  (∀ (p : Params) (ir : Byte) (d : DecoderOut) (op : AluOp), decoder p ir = .ok d → d.aluOp = some op → aluSel op ≠ 3) ∧
  (∀ (p : Params) (s t : State), stepWith p s = .next t → t.faultCode ≠ .unsupportedOperation)

/-- R112, R113, R114: Add and Multiply are exact and narrowed modulo 256, writing a register and no flag; Compare is unsigned,
sets exactly one flag and writes no register. -/
def Obligations.AluComputesUnsignedModulo256 : Prop :=
  ∀ a b : Byte,
    (∃ r, alu 0 a b = .ok r ∧ r = .result (BitVec.ofNat 8 ((a.toNat + b.toNat) % 256)) ∧
      r.writesReg = true ∧ r.writesFl = false) ∧
    (∃ r, alu 1 a b = .ok r ∧ r = .result (BitVec.ofNat 8 ((a.toNat * b.toNat) % 256)) ∧
      r.writesReg = true ∧ r.writesFl = false) ∧
    (∃ f : Flags, alu 2 a b = .ok (.flags f) ∧ AluOut.writesReg (.flags f) = false ∧ AluOut.writesFl (.flags f) = true ∧
      (a.toNat = b.toNat → f = ⟨true, false, false⟩) ∧
      (b.toNat < a.toNat → f = ⟨false, true, false⟩) ∧
      (a.toNat < b.toNat → f = ⟨false, false, true⟩))

/-- R130: SpDec and SpInc move the stack pointer by one; at 0 and at 255 they wrap if SP_WRAP is true and raise otherwise; the
default is false. -/
def Obligations.StackPointerNeverLeavesItsRange : Prop :=
  Config.hardware.spWrap = false ∧
  ∀ (p : Params) (s : State),
    (s.reg p.spIndex = 0 → p.spWrap = true → spDec p s = .ok (s.setReg p.spIndex 255)) ∧
    (s.reg p.spIndex = 0 → p.spWrap = false → spDec p s = .error (.outOfBounds .stack (-1))) ∧
    (s.reg p.spIndex ≠ 0 → ∃ w, spDec p s = .ok w ∧ (w.reg p.spIndex).toNat = (s.reg p.spIndex).toNat - 1 ∧
      w = s.setReg p.spIndex (w.reg p.spIndex)) ∧
    (s.reg p.spIndex = 255 → p.spWrap = true → spInc p s = .ok (s.setReg p.spIndex 0)) ∧
    (s.reg p.spIndex = 255 → p.spWrap = false → spInc p s = .error (.outOfBounds .stack 256)) ∧
    (s.reg p.spIndex ≠ 255 → ∃ w, spInc p s = .ok w ∧ (w.reg p.spIndex).toNat = (s.reg p.spIndex).toNat + 1 ∧
      w = s.setReg p.spIndex (w.reg p.spIndex)) ∧
    (∀ w, spDec p s = .ok w ∨ spInc p s = .ok w → ∀ v,
      memRead (w.reg p.spIndex).toNat w = .ok (w.mem.get (w.reg p.spIndex).toNat) ∧
      memWrite (w.reg p.spIndex).toNat v w = .ok { w with mem := w.mem.put (w.reg p.spIndex).toNat v })

/-- R42: an access in range reads or writes exactly its cell, a read after a write gives the byte written, and an access out
of range raises and changes nothing. Premise: memory in its canonical form, which every step keeps. -/
def Obligations.MemoryReadsBackWhatWasWritten : Prop :=
  ∀ (s : State) (addr : Int) (v : Byte), s.mem.wf = true →
    (0 ≤ addr → addr < 256 →
      memRead addr s = .ok (s.mem.get addr.toNat) ∧
      ∃ t, memWrite addr v s = .ok t ∧ t = { s with mem := t.mem } ∧ t.mem.wf = true ∧ memRead addr t = .ok v ∧
        (∀ c : Int, 0 ≤ c → c < 256 → c ≠ addr → memRead c t = memRead c s)) ∧
    (addr < 0 ∨ 256 ≤ addr →
      memRead addr s = .error (.outOfBounds .memory addr) ∧ memWrite addr v s = .error (.outOfBounds .memory addr))

/-! ### Frames -/

/-- The frame of LDI, MUL and ADD, whose destination is register `d`: every other register, the flags, the output, the halted
flag and every byte of memory are unchanged, and so is the fault status if the register operands are below 8. -/
def Obligations.FrameOfRegisterDestination : Prop :=
  ∀ (i : Instr) (d b : Byte) (s t : State), i = .ldi d b ∨ i = .mul d b ∨ i = .add d b → exec i s = .next t →
    (∀ j : Fin 8, j.val ≠ d.toNat → t.reg j = s.reg j) ∧
    t.fl = s.fl ∧ t.output = s.output ∧ t.halted = s.halted ∧
    (∀ c, t.mem.get c = s.mem.get c) ∧
    (i.wellFormed = true → t.faultCode = s.faultCode ∧ t.faultPc = s.faultPc ∧ t.faultInfo = s.faultInfo)

/-- The frame of HLT, PRN, CMP, JMP, JEQ and JNE, which write no register and no memory: every register and every byte of
memory is unchanged; FL is unchanged unless CMP, the output unless PRN, the halted flag unless HLT; and the fault status is
unchanged if the register operands are below 8. -/
def Obligations.FrameOfNoDestination : Prop :=
  ∀ (i : Instr) (s t : State),
    i.mnemonic = .hlt ∨ i.mnemonic = .prn ∨ i.mnemonic = .cmp ∨ i.mnemonic = .jmp ∨ i.mnemonic = .jeq ∨ i.mnemonic = .jne →
    exec i s = .next t →
    (∀ j : Fin 8, t.reg j = s.reg j) ∧
    (∀ c, t.mem.get c = s.mem.get c) ∧
    (i.mnemonic ≠ .cmp → t.fl = s.fl) ∧
    (i.mnemonic ≠ .prn → t.output = s.output) ∧
    (i.mnemonic ≠ .hlt → t.halted = s.halted) ∧
    (i.wellFormed = true → t.faultCode = s.faultCode ∧ t.faultPc = s.faultPc ∧ t.faultInfo = s.faultInfo)

/-- The frame of PUSH and CALL, which store one byte at the decremented stack pointer: every register but R7 is unchanged, and
so are the flags, the output and the halted flag; every byte of memory outside the address `SpDec()` gives is unchanged, and
all of memory is where `SpDec()` raises or the instruction does; the fault status changes only by a fault entry. -/
def Obligations.FrameOfStackStore : Prop :=
  ∀ (i : Instr) (a : Byte) (s t : State), i = .push a ∨ i = .call a → exec i s = .next t →
    (∀ j : Fin 8, j ≠ 7 → t.reg j = s.reg j) ∧
    t.fl = s.fl ∧ t.output = s.output ∧ t.halted = s.halted ∧
    (∀ w, spDec Config.hardware s = .ok w → ∀ c, c ≠ (w.reg 7).toNat → t.mem.get c = s.mem.get c) ∧
    (∀ e, spDec Config.hardware s = .error e → ∀ c, t.mem.get c = s.mem.get c) ∧
    ((t.faultCode = s.faultCode ∧ t.faultPc = s.faultPc ∧ t.faultInfo = s.faultInfo) ∨
      ∃ info, t = s.faultedWith .outOfBounds info)

/-- The frame of POP `a` and RET, which store nothing: every byte of memory is unchanged (the popped cell too), every register
but R7 and POP's destination is unchanged, and so are the flags, the output and the halted flag; the fault status changes
only by a fault entry. -/
def Obligations.FrameOfStackLoad : Prop :=
  ∀ (i : Instr) (s t : State), (∃ a, i = .pop a) ∨ i = .ret → exec i s = .next t →
    (∀ j : Fin 8, j ≠ 7 → (∀ a, i = .pop a → j.val ≠ a.toNat) → t.reg j = s.reg j) ∧
    t.fl = s.fl ∧ t.output = s.output ∧ t.halted = s.halted ∧
    (∀ c, t.mem.get c = s.mem.get c) ∧
    ((t.faultCode = s.faultCode ∧ t.faultPc = s.faultPc ∧ t.faultInfo = s.faultInfo) ∨
      ∃ info, t = s.faultedWith .outOfBounds info)

/-! ### Reset and the load -/

/-- R181: what reset leaves, the values the spec gives. The last clause is R180's, reset from any state of the core: it equates
the core after reset with the whole of `State.reset`, so in it `faultPc` and `faultInfo`, which the spec leaves open, hold the
model's own values (log entry 2, DESIGN CHOICE), and the phase bit `started` is the model's too (log entry 11, DESIGN CHOICE). -/
def Obligations.ResetLeavesTheStatedValues : Prop :=
  (∀ a, State.reset.mem.get a = 0) ∧
  (∀ j : Fin 8, State.reset.reg j = if j = 7 then 0xF4 else 0) ∧
  State.reset.fl = ⟨false, false, false⟩ ∧
  State.reset.pc = 0 ∧
  State.reset.halted = false ∧
  State.reset.output = [] ∧
  State.reset.faultCode = .none ∧
  (∀ y : System, y.apply Config.hardware .reset = some ⟨State.reset, false⟩)

/-- R184: an image of N <= 256 bytes goes to addresses 0..N-1 in order, the cells from N up keep 0, nothing but memory
changes, and a larger image never reaches the core; the load port writes one cell and nothing else (R98). That the model has a
load move only before the first step (R98, R191), told by the phase bit `started`, is the model's choice (log entry 7, DEDUCED,
and log entry 11, DESIGN CHOICE). -/
def Obligations.LoadFillsMemoryFromAddressZero : Prop :=
  (∀ image : List Byte, image.length ≤ 256 → ∃ t, loadImage image State.reset = some t ∧
    t = { State.reset with mem := t.mem } ∧ t.mem.wf = true ∧
    (∀ (k : Nat) (h : k < image.length), t.mem.get k = image[k]) ∧
    (∀ k : Nat, image.length ≤ k → t.mem.get k = 0)) ∧
  (∀ (image : List Byte) (s : State), 256 < image.length → loadImage image s = none) ∧
  (∀ (y z : System) (addr data : Byte), y.core.mem.wf = true → y.apply Config.hardware (.load addr data) = some z →
    y.started = false ∧ z.started = false ∧ z.core = { y.core with mem := z.core.mem } ∧
    z.core.mem.get addr.toNat = data ∧ (∀ c, c ≠ addr.toNat → z.core.mem.get c = y.core.mem.get c))

/-! ### Pairs of instructions and runs -/

/-- R133: PUSH then POP of the same register restores every register, the stack pointer among them, R7 as operand included.
Both complete: neither next state is a fault entry, for the pc advances by 2 each time and the fault status stays as it was;
and the PUSH has lowered R7 by one and stored at the new R7. -/
def Obligations.PushThenPopRestoresTheRegister : Prop :=
  ∀ (s : State) (a : Byte) (_h : a.toNat < 8), s.regs[7] ≠ 0 → s.mem.wf = true →
    ∃ t u, exec (.push a) s = .next t ∧
      t.pc = BitVec.ofNat 9 (s.pc.toNat + 2) ∧ t.regs[7] = s.regs[7] - 1 ∧
      t.mem.get t.regs[7].toNat = (s.regs.set 7 (s.regs[7] - 1))[a.toNat] ∧
      t.faultCode = s.faultCode ∧ t.faultPc = s.faultPc ∧ t.faultInfo = s.faultInfo ∧
      exec (.pop a) t = .next u ∧
      u.pc = BitVec.ofNat 9 (t.pc.toNat + 2) ∧ u.regs = s.regs ∧
      u.faultCode = s.faultCode ∧ u.faultPc = s.faultPc ∧ u.faultInfo = s.faultInfo

/-- R141: CALL then RET returns to the byte after CALL's operand byte, with the stack pointer and every other register as
before. -/
def Obligations.CallThenRetReturnsPastTheCall : Prop :=
  ∀ (s : State) (a : Byte), a.toNat < 8 → s.pc.toNat ≤ 253 → s.regs[7] ≠ 0 → s.mem.wf = true →
    ∃ t u, exec (.call a) s = .next t ∧ exec .ret t = .next u ∧ u.pc.toNat = s.pc.toNat + 2 ∧ u.regs = s.regs

/-- R188: a PUSH at pc `p` with SP = `p + 3` writes its own ignored candidate byte, which is the opcode of the next
instruction: that step runs with the bytes it fetched, and the next step executes the pushed value as an opcode. -/
def Obligations.NextStepExecutesAPushedOpcode : Prop :=
  ∀ (s : State) (p : Nat) (a v : Byte) (_h : a.toNat < 8), s.Running → s.mem.wf = true → s.pc.toNat = p → p + 2 ≤ 253 →
    s.mem.get p = 0x45 → s.mem.get (p + 1) = a → s.regs[7].toNat = p + 3 →
    v = (s.regs.set 7 (s.regs[7] - 1))[a.toNat] →
    ∃ t, step s = .next t ∧ t.pc.toNat = p + 2 ∧ t.regs[7].toNat = p + 2 ∧ t.mem.get (p + 2) = v ∧
      (∀ m, decodeOpcode Config.hardware v = some m →
        step t = exec (assemble m (s.mem.get (p + 3)) (s.mem.get (p + 4))) t) ∧
      (decodeOpcode Config.hardware v = none → step t = .next (t.faultedWith .invalidInstruction (.opcode v)))

/-- R94: a JMP to its own address runs for ever: every number of steps leaves the state as it is, with no fault and no halt. -/
def Obligations.JmpToItselfNeverEnds : Prop :=
  ∀ (s : State) (a : Byte) (_h : a.toNat < 8), s.Running → s.pc.toNat ≤ 253 → s.mem.get s.pc.toNat = 0x54 →
    s.mem.get (s.pc.toNat + 1) = a → s.regs[a.toNat].toNat = s.pc.toNat →
    ∀ k : Nat, Host.Core.run Sys2Proof.core k s = .next s

/-- R34, K9: `faultPc` and `faultInfo` cannot be observed while the code is 0: whatever they hold, a step of a running core gives
the same state but for them, and the same state altogether if it faults; and the ports do not show them. The values the
model gives them at reset (log entry 2) therefore do not matter. -/
def Obligations.FaultStatusIsUnobservableWhileRunning : Prop :=
  ∀ (s t : State) (x : PcWord) (y : FaultInfo), step s = .next t →
    step { s with faultPc := x, faultInfo := y } =
      .next (if t.faultCode = .none then { t with faultPc := x, faultInfo := y } else t) ∧
    State.ports { s with faultPc := x, faultInfo := y } = s.ports

/-! ### Invariants -/

/-- R27: for every setting of the parameters of R6, a step from a pc in 0..256 leaves the pc in 0..256. -/
def Obligations.PcStaysInRangeForEverySetting : Prop :=
  ∀ (p : Params) (s t : State), s.pc.toNat ≤ 256 → stepWith p s = .next t → t.pc.toNat ≤ 256

/-- The invariant of this hardware holds at reset. -/
def Obligations.ResetMeetsTheInvariant : Prop := State.reset.Inv

/-- Every step keeps the invariant: canonical memory (R40), the pc in 0..256 (R27), at most one flag (R30), never halted and
faulted at once (R167), a halted pc one past an HLT byte (R92), and a fault status that only a fault of this hardware can
leave (R161 to R165). -/
def Obligations.StepKeepsTheInvariant : Prop :=
  ∀ s t : State, s.Inv → step s = .next t → t.Inv

/-- Every state of every run, from any loaded image, meets the invariant. -/
def Obligations.ReachableStatesMeetTheInvariant : Prop :=
  ∀ s : State, Reachable s → s.Inv

/-- Every move the host may make keeps the invariant of the core with its host. The moves and the phase bit `started` are the
model's choice (log entry 11, DESIGN CHOICE), and so is that there is no load move after the first step (log entry 7, DEDUCED
from R191): a load over a halted core's HLT byte would break the invariant. -/
def Obligations.HostMovesKeepTheInvariant : Prop :=
  ∀ (y z : System) (m : HostMove), y.Inv → y.apply Config.hardware m = some z → z.Inv
end

