-- ==== Sys2Proof/Laws/Decode.lean ====
section
/-! SUPPORT. The opcode map and the decoder. -/

namespace Sys2Proof

/-- A decoded opcode is the mnemonic's own opcode byte. -/
theorem opcodeMap_of_decodeOpcode (p : Params) (op : Byte) (m : Mnemonic) (h : decodeOpcode p op = some m) :
    p.opcodeMap m = op := by
  have := List.find?_some h
  simpa using this

theorem Mnemonic.mem_all (m : Mnemonic) : m ∈ Mnemonic.all := by cases m <;> decide

/-- A byte is an opcode exactly when some mnemonic has it. -/
theorem decodeOpcode_none_iff (p : Params) (op : Byte) : decodeOpcode p op = none ↔ ∀ m, p.opcodeMap m ≠ op := by
  simp only [decodeOpcode, List.find?_eq_none, beq_iff_eq]
  exact ⟨fun h m => h m m.mem_all, fun h m _ => h m⟩

/-- With an injective opcode map each mnemonic's byte decodes to it. -/
theorem decodeOpcode_opcodeMap (p : Params) (hp : p.InjectiveOpcodes) (m : Mnemonic) :
    decodeOpcode p (p.opcodeMap m) = some m := by
  cases h : decodeOpcode p (p.opcodeMap m) with
  | none => exact absurd rfl ((decodeOpcode_none_iff p _).1 h m)
  | some n => rw [hp n m (opcodeMap_of_decodeOpcode p _ n h)]

theorem hardware_injectiveOpcodes : Config.hardware.InjectiveOpcodes := by
  intro m n h
  revert h
  cases m <;> cases n <;> decide

/-- Assembling an instruction keeps its mnemonic. -/
@[simp] theorem assemble_mnemonic (m : Mnemonic) (a b : Byte) : (assemble m a b).mnemonic = m := by cases m <;> rfl

/-- The number of operand bytes an instruction carries is its operand count (R61). -/
theorem operandBytes_length (i : Instr) : i.operandBytes.length = i.mnemonic.nops := by cases i <;> rfl

end Sys2Proof
end

