-- ==== Sys2Proof/Laws/Memory.lean ====
section
/-! SUPPORT. The laws of the memory array: read after write, the canonical form, and equality by contents. -/

namespace Sys2Proof.Machine

/-- A canonical list of cells from `lo` up, taken apart. -/
theorem cellsWf_cons (a : Nat) (v : Byte) (t : List Host.Cell) (lo : Nat) :
    cellsWf ((a, v) :: t) lo = true ↔ lo ≤ a ∧ a < 256 ∧ v ≠ Memory.unlisted ∧ cellsWf t (a + 1) = true := by
  simp only [cellsWf, Bool.and_eq_true, decide_eq_true_eq]
  constructor
  · rintro ⟨⟨⟨h1, h2⟩, h3⟩, h4⟩; exact ⟨h1, h2, h3, h4⟩
  · rintro ⟨h1, h2, h3, h4⟩; exact ⟨⟨⟨h1, h2⟩, h3⟩, h4⟩

theorem cellsWf_mono (t : List Host.Cell) (lo lo' : Nat) (h : cellsWf t lo = true) (hl : lo' ≤ lo) :
    cellsWf t lo' = true := by
  cases t with
  | nil => rfl
  | cons c t =>
    obtain ⟨a, v⟩ := c
    rw [cellsWf_cons] at h ⊢
    exact ⟨Nat.le_trans hl h.1, h.2⟩

/-- Below the first address of a canonical list every address reads as unlisted. -/
theorem getCells_below (t : List Host.Cell) (lo a : Nat) (h : cellsWf t lo = true) (ha : a < lo) :
    getCells t a = Memory.unlisted := by
  induction t generalizing lo with
  | nil => rfl
  | cons c t ih =>
    obtain ⟨b, w⟩ := c
    rw [cellsWf_cons] at h
    have hne : a ≠ b := by omega
    simp only [getCells, hne, if_false]
    exact ih (b + 1) h.2.2.2 (by omega)

/-- Past the last cell every address reads as unlisted. -/
theorem getCells_above (t : List Host.Cell) (lo a : Nat) (h : cellsWf t lo = true) (ha : 256 ≤ a) :
    getCells t a = Memory.unlisted := by
  induction t generalizing lo with
  | nil => rfl
  | cons c t ih =>
    obtain ⟨b, w⟩ := c
    rw [cellsWf_cons] at h
    have hne : a ≠ b := by omega
    simp only [getCells, hne, if_false]
    exact ih (b + 1) h.2.2.2

theorem putCells_wf (t : List Host.Cell) (lo a : Nat) (v : Byte) (h : cellsWf t lo = true) (hlo : lo ≤ a)
    (ha : a < 256) : cellsWf (putCells t a v) lo = true := by
  induction t generalizing lo with
  | nil =>
    by_cases hv : v = Memory.unlisted
    · simp [putCells, hv, cellsWf]
    · simp only [putCells, hv, if_false]
      exact (cellsWf_cons a v [] lo).2 ⟨hlo, ha, hv, rfl⟩
  | cons c t ih =>
    obtain ⟨b, w⟩ := c
    have hb := (cellsWf_cons b w t lo).1 h
    simp only [putCells]
    split
    · split
      · exact h
      · rename_i hab hv
        exact (cellsWf_cons _ _ _ _).2 ⟨hlo, ha, hv, (cellsWf_cons _ _ _ _).2 ⟨by omega, hb.2⟩⟩
    · split
      · rename_i hab
        split
        · exact cellsWf_mono t (b + 1) lo hb.2.2.2 (by omega)
        · rename_i hv
          exact (cellsWf_cons _ _ _ _).2 ⟨hlo, ha, hv, hab ▸ hb.2.2.2⟩
      · exact (cellsWf_cons _ _ _ _).2 ⟨hb.1, hb.2.1, hb.2.2.1, ih (b + 1) hb.2.2.2 (by omega)⟩

theorem getCells_putCells_same (t : List Host.Cell) (lo a : Nat) (v : Byte) (h : cellsWf t lo = true) :
    getCells (putCells t a v) a = v := by
  induction t generalizing lo with
  | nil =>
    by_cases hv : v = Memory.unlisted
    · simp [putCells, hv, getCells]
    · simp [putCells, hv, getCells]
  | cons c t ih =>
    obtain ⟨b, w⟩ := c
    have hb := (cellsWf_cons b w t lo).1 h
    simp only [putCells]
    split
    · split
      · rename_i hab hv
        have hne : a ≠ b := by omega
        simp only [getCells, hne, if_false, hv]
        exact getCells_below t (b + 1) a hb.2.2.2 (by omega)
      · simp [getCells]
    · split
      · rename_i hab
        split
        · rename_i hv
          rw [hv]
          exact getCells_below t (b + 1) a hb.2.2.2 (by omega)
        · simp [getCells]
      · rename_i hab hne
        simp only [getCells, hne, if_false]
        exact ih (b + 1) hb.2.2.2

theorem getCells_putCells_other (t : List Host.Cell) (a c : Nat) (v : Byte) (hc : c ≠ a) :
    getCells (putCells t a v) c = getCells t c := by
  induction t with
  | nil =>
    by_cases hv : v = Memory.unlisted
    · simp [putCells, hv]
    · simp [putCells, hv, getCells, hc]
  | cons d t ih =>
    obtain ⟨b, w⟩ := d
    simp only [putCells]
    split
    · split
      · rfl
      · simp [getCells, hc]
    · split
      · rename_i hab
        split
        · simp [getCells, hab ▸ hc]
        · simp [getCells, hc, hab ▸ hc]
      · simp [getCells, ih]

/-- Two canonical lists that read alike everywhere are equal. -/
theorem cells_ext (t u : List Host.Cell) (lo : Nat) (ht : cellsWf t lo = true) (hu : cellsWf u lo = true)
    (h : ∀ a, getCells t a = getCells u a) : t = u := by
  induction t generalizing u lo with
  | nil =>
    cases u with
    | nil => rfl
    | cons c u =>
      obtain ⟨b, w⟩ := c
      have hb := (cellsWf_cons b w u lo).1 hu
      have := h b
      simp only [getCells, if_true] at this
      exact absurd this.symm hb.2.2.1
  | cons c t ih =>
    obtain ⟨a, v⟩ := c
    have hta := (cellsWf_cons a v t lo).1 ht
    cases u with
    | nil =>
      have := h a
      simp only [getCells, if_true] at this
      exact absurd this hta.2.2.1
    | cons d u =>
      obtain ⟨b, w⟩ := d
      have hub := (cellsWf_cons b w u lo).1 hu
      have hab : a = b := by
        rcases Nat.lt_trichotomy a b with hlt | heq | hgt
        · have hne : a ≠ b := by omega
          have hh := h a
          simp only [getCells, if_true, hne, if_false, getCells_below u (b + 1) a hub.2.2.2 (by omega)] at hh
          exact absurd hh hta.2.2.1
        · exact heq
        · have hne : b ≠ a := by omega
          have hh := h b
          simp only [getCells, if_true, hne, if_false, getCells_below t (a + 1) b hta.2.2.2 (by omega)] at hh
          exact absurd hh.symm hub.2.2.1
      subst hab
      have hvw : v = w := by simpa [getCells] using h a
      subst hvw
      have : t = u := by
        refine ih u (a + 1) hta.2.2.2 hub.2.2.2 fun c => ?_
        by_cases hc : c = a
        · rw [hc, getCells_below t (a + 1) a hta.2.2.2 (by omega), getCells_below u (a + 1) a hub.2.2.2 (by omega)]
        · simpa [getCells, hc] using h c
      rw [this]

/-! ### The same of `Memory` -/

/-- A cell read after a write to it gives the byte written. -/
theorem Memory.get_put_same (m : Memory) (a : Nat) (v : Byte) (h : m.wf = true) : (m.put a v).get a = v :=
  getCells_putCells_same m.cells 0 a v h

/-- A write leaves every other cell as it was. -/
theorem Memory.get_put_other (m : Memory) (a c : Nat) (v : Byte) (hc : c ≠ a) : (m.put a v).get c = m.get c :=
  getCells_putCells_other m.cells a c v hc

/-- A write keeps the canonical form. -/
theorem Memory.put_wf (m : Memory) (a : Nat) (v : Byte) (h : m.wf = true) (ha : a < 256) : (m.put a v).wf = true :=
  putCells_wf m.cells 0 a v h (Nat.zero_le a) ha

/-- Canonical memories that read alike are equal. -/
theorem Memory.ext_get (m n : Memory) (hm : m.wf = true) (hn : n.wf = true) (h : ∀ a, m.get a = n.get a) : m = n := by
  cases m; cases n
  exact congrArg Memory.mk (cells_ext _ _ 0 hm hn h)

/-- A list of writes keeps the canonical form. -/
theorem Memory.putList_wf (m : Memory) (a : Nat) (bs : List Byte) (h : m.wf = true) : (m.putList a bs).wf = true := by
  induction bs generalizing m a with
  | nil => exact h
  | cons v bs ih =>
    simp only [Memory.putList]
    apply ih
    split
    · exact Memory.put_wf m a v h ‹_›
    · exact h

/-- A list of writes from `a` up leaves every cell below `a` as it was. -/
theorem Memory.get_putList_below (m : Memory) (a c : Nat) (bs : List Byte) (hc : c < a) :
    (m.putList a bs).get c = m.get c := by
  induction bs generalizing m a with
  | nil => rfl
  | cons v bs ih =>
    simp only [Memory.putList]
    rw [ih _ _ (by omega)]
    split
    · exact Memory.get_put_other m a c v (by omega)
    · rfl

/-- What a list of writes that fits leaves in a cell it wrote. -/
theorem Memory.get_putList_in (m : Memory) (a : Nat) (bs : List Byte) (k : Nat) (h : m.wf = true) (hk : k < bs.length)
    (ha : a + bs.length ≤ 256) : (m.putList a bs).get (a + k) = bs[k] := by
  induction bs generalizing m a k with
  | nil => simp at hk
  | cons v bs ih =>
    simp only [List.length_cons] at ha hk
    have ha' : a < 256 := by omega
    simp only [Memory.putList, ha', if_true]
    cases k with
    | zero =>
      rw [Nat.add_zero, Memory.get_putList_below _ _ _ _ (by omega)]
      exact Memory.get_put_same m a v h
    | succ k =>
      have := ih (m.put a v) (a + 1) k (Memory.put_wf m a v h ha') (by omega) (by omega)
      simpa [Nat.add_assoc, Nat.add_comm 1 k] using this

/-- A list of writes leaves every cell past its end as it was. -/
theorem Memory.get_putList_above (m : Memory) (a c : Nat) (bs : List Byte) (hc : a + bs.length ≤ c) :
    (m.putList a bs).get c = m.get c := by
  induction bs generalizing m a with
  | nil => rfl
  | cons v bs ih =>
    simp only [List.length_cons] at hc
    simp only [Memory.putList]
    rw [ih _ _ (by omega)]
    split
    · exact Memory.get_put_other m a c v (by omega)
    · rfl

/-! ### Every operation that writes memory keeps its form -/

/-- The write of `MemWrite` keeps the canonical form. -/
theorem memWrite_wf (addr : Int) (v : Byte) (s t : State) (h : memWrite addr v s = .ok t) (hs : s.mem.wf = true) :
    t.mem.wf = true := by
  unfold memWrite at h
  split at h
  · rename_i hin
    simp only [inMemory, Bool.and_eq_true, decide_eq_true_eq] at hin
    cases h
    exact Memory.put_wf _ _ _ hs (by omega)
  · cases h

theorem loadByte_wf (a d : Byte) (s : State) (hs : s.mem.wf = true) : (loadByte a d s).mem.wf = true :=
  Memory.put_wf _ _ _ hs a.isLt

theorem loadImage_wf (image : List Byte) (s t : State) (h : loadImage image s = some t) (hs : s.mem.wf = true) :
    t.mem.wf = true := by
  unfold loadImage at h
  split at h
  · cases h
    exact Memory.putList_wf _ _ _ hs
  · cases h

theorem withFetchWord_wf (s : State) (nbits w : Nat) (hs : s.mem.wf = true) : (s.withFetchWord nbits w).mem.wf = true :=
  Memory.putList_wf _ _ _ hs

theorem resetWith_mem_wf (p : Params) : (State.resetWith p).mem.wf = true := rfl

end Sys2Proof.Machine
end

