-- ==== Sys2Proof/Laws/Operands.lean ====
section
/-! SUPPORT. What the operand check and the alu can answer. -/

namespace Sys2Proof.Machine

theorem regOperand_of_lt (v : Byte) (h : v.toNat < 8) : regOperand v = .ok ⟨v.toNat, h⟩ := by
  simp [regOperand, h]

theorem regOperand_of_ge (v : Byte) (h : 8 ≤ v.toNat) : regOperand v = .error (.outOfBounds .register v.toNat) := by
  simp [regOperand, Nat.not_lt.2 h]

/-- The operand check answers the register its byte names, or raises. -/
theorem regOperand_cases (v : Byte) :
    (∃ h : v.toNat < 8, regOperand v = .ok ⟨v.toNat, h⟩) ∨
    (8 ≤ v.toNat ∧ regOperand v = .error (.outOfBounds .register v.toNat)) := by
  by_cases h : v.toNat < 8
  · exact .inl ⟨h, regOperand_of_lt v h⟩
  · exact .inr ⟨by omega, regOperand_of_ge v (by omega)⟩

theorem regOperands_of_lt (a b : Byte) (ha : a.toNat < 8) (hb : b.toNat < 8) :
    regOperands a b = .ok (⟨a.toNat, ha⟩, ⟨b.toNat, hb⟩) := by
  simp [regOperands, regOperand_of_lt a ha, regOperand_of_lt b hb, bind, Except.bind, pure, Except.pure]

theorem regOperands_of_ge_left (a b : Byte) (ha : 8 ≤ a.toNat) :
    regOperands a b = .error (.outOfBounds .register a.toNat) := by
  simp [regOperands, regOperand_of_ge a ha, bind, Except.bind]

theorem regOperands_of_ge_right (a b : Byte) (ha : a.toNat < 8) (hb : 8 ≤ b.toNat) :
    regOperands a b = .error (.outOfBounds .register b.toNat) := by
  simp [regOperands, regOperand_of_lt a ha, regOperand_of_ge b hb, bind, Except.bind]

/-- The check of two operands answers both registers, or raises for the first byte that names none. -/
theorem regOperands_cases (a b : Byte) :
    (∃ ha : a.toNat < 8, ∃ hb : b.toNat < 8, regOperands a b = .ok (⟨a.toNat, ha⟩, ⟨b.toNat, hb⟩)) ∨
    (8 ≤ a.toNat ∧ regOperands a b = .error (.outOfBounds .register a.toNat)) ∨
    (a.toNat < 8 ∧ 8 ≤ b.toNat ∧ regOperands a b = .error (.outOfBounds .register b.toNat)) := by
  by_cases ha : a.toNat < 8
  · by_cases hb : b.toNat < 8
    · exact .inl ⟨ha, hb, regOperands_of_lt a b ha hb⟩
    · exact .inr (.inr ⟨ha, by omega, regOperands_of_ge_right a b ha (by omega)⟩)
  · exact .inr (.inl ⟨by omega, regOperands_of_ge_left a b (by omega)⟩)

@[simp] theorem alu_add (a b : Byte) : alu (aluSel .add) a b = .ok (.result (BitVec.ofNat 8 (a.toNat + b.toNat))) := rfl

@[simp] theorem alu_multiply (a b : Byte) :
    alu (aluSel .multiply) a b = .ok (.result (BitVec.ofNat 8 (a.toNat * b.toNat))) := rfl

@[simp] theorem alu_compare (a b : Byte) : alu (aluSel .compare) a b = .ok (.flags (compareFlags a b)) := rfl

/-- The common part of MUL, ADD and CMP answers the committed alu answer, or raises for the first operand that names no
register. -/
theorem aluInstr_cases (op : AluOp) (a b : Byte) (s : State) :
    (∃ ha : a.toNat < 8, ∃ hb : b.toNat < 8, ∃ out, alu (aluSel op) (s.reg ⟨a.toNat, ha⟩) (s.reg ⟨b.toNat, hb⟩) = .ok out ∧
      aluInstr op a b s = .ok ((s.applyAlu ⟨a.toNat, ha⟩ out).advance 3)) ∨
    (8 ≤ a.toNat ∧ aluInstr op a b s = .error (.outOfBounds .register a.toNat)) ∨
    (a.toNat < 8 ∧ 8 ≤ b.toNat ∧ aluInstr op a b s = .error (.outOfBounds .register b.toNat)) := by
  rcases regOperands_cases a b with ⟨ha, hb, h⟩ | ⟨ha, h⟩ | ⟨ha, hb, h⟩
  · refine .inl ⟨ha, hb, ?_⟩
    cases op <;> exact ⟨_, rfl, by simp [aluInstr, h, bind, Except.bind, pure, Except.pure]⟩
  · exact .inr (.inl ⟨ha, by simp [aluInstr, h, bind, Except.bind]⟩)
  · exact .inr (.inr ⟨ha, hb, by simp [aluInstr, h, bind, Except.bind]⟩)

/-- A comparison sets exactly one flag. -/
theorem compareFlags_cases (a b : Byte) :
    (a = b ∧ compareFlags a b = ⟨true, false, false⟩) ∨
    (b.toNat < a.toNat ∧ compareFlags a b = ⟨false, true, false⟩) ∨
    (a.toNat < b.toNat ∧ compareFlags a b = ⟨false, false, true⟩) := by
  unfold compareFlags
  split
  · exact .inl ⟨BitVec.eq_of_toNat_eq ‹_›, rfl⟩
  · split
    · exact .inr (.inl ⟨‹_›, rfl⟩)
    · exact .inr (.inr ⟨by omega, rfl⟩)

end Sys2Proof.Machine
end

