-- ==== Sys2Proof/Laws/State.lean ====
section
/-! SUPPORT. What each named update of State does to each field, one lemma per field per update. -/

namespace Sys2Proof.Machine

/-! ### `setReg` -/

@[simp] theorem State.setReg_mem (s : State) (i : Fin 8) (v : Byte) : (s.setReg i v).mem = s.mem := rfl
@[simp] theorem State.setReg_regs (s : State) (i : Fin 8) (v : Byte) : (s.setReg i v).regs = s.regs.set i.val v := rfl
@[simp] theorem State.setReg_fl (s : State) (i : Fin 8) (v : Byte) : (s.setReg i v).fl = s.fl := rfl
@[simp] theorem State.setReg_pc (s : State) (i : Fin 8) (v : Byte) : (s.setReg i v).pc = s.pc := rfl
@[simp] theorem State.setReg_halted (s : State) (i : Fin 8) (v : Byte) : (s.setReg i v).halted = s.halted := rfl
@[simp] theorem State.setReg_output (s : State) (i : Fin 8) (v : Byte) : (s.setReg i v).output = s.output := rfl
@[simp] theorem State.setReg_faultCode (s : State) (i : Fin 8) (v : Byte) : (s.setReg i v).faultCode = s.faultCode := rfl
@[simp] theorem State.setReg_faultPc (s : State) (i : Fin 8) (v : Byte) : (s.setReg i v).faultPc = s.faultPc := rfl
@[simp] theorem State.setReg_faultInfo (s : State) (i : Fin 8) (v : Byte) : (s.setReg i v).faultInfo = s.faultInfo := rfl

/-! ### `setFlags` -/

@[simp] theorem State.setFlags_mem (s : State) (f : Flags) : (s.setFlags f).mem = s.mem := rfl
@[simp] theorem State.setFlags_regs (s : State) (f : Flags) : (s.setFlags f).regs = s.regs := rfl
@[simp] theorem State.setFlags_fl (s : State) (f : Flags) : (s.setFlags f).fl = f := rfl
@[simp] theorem State.setFlags_pc (s : State) (f : Flags) : (s.setFlags f).pc = s.pc := rfl
@[simp] theorem State.setFlags_halted (s : State) (f : Flags) : (s.setFlags f).halted = s.halted := rfl
@[simp] theorem State.setFlags_output (s : State) (f : Flags) : (s.setFlags f).output = s.output := rfl
@[simp] theorem State.setFlags_faultCode (s : State) (f : Flags) : (s.setFlags f).faultCode = s.faultCode := rfl
@[simp] theorem State.setFlags_faultPc (s : State) (f : Flags) : (s.setFlags f).faultPc = s.faultPc := rfl
@[simp] theorem State.setFlags_faultInfo (s : State) (f : Flags) : (s.setFlags f).faultInfo = s.faultInfo := rfl

/-! ### `emit` -/

@[simp] theorem State.emit_mem (s : State) (v : Byte) : (s.emit v).mem = s.mem := rfl
@[simp] theorem State.emit_regs (s : State) (v : Byte) : (s.emit v).regs = s.regs := rfl
@[simp] theorem State.emit_fl (s : State) (v : Byte) : (s.emit v).fl = s.fl := rfl
@[simp] theorem State.emit_pc (s : State) (v : Byte) : (s.emit v).pc = s.pc := rfl
@[simp] theorem State.emit_halted (s : State) (v : Byte) : (s.emit v).halted = s.halted := rfl
@[simp] theorem State.emit_output (s : State) (v : Byte) : (s.emit v).output = s.output ++ [v] := rfl
@[simp] theorem State.emit_faultCode (s : State) (v : Byte) : (s.emit v).faultCode = s.faultCode := rfl
@[simp] theorem State.emit_faultPc (s : State) (v : Byte) : (s.emit v).faultPc = s.faultPc := rfl
@[simp] theorem State.emit_faultInfo (s : State) (v : Byte) : (s.emit v).faultInfo = s.faultInfo := rfl

/-! ### `halt` -/

@[simp] theorem State.halt_mem (s : State) : (s.halt).mem = s.mem := rfl
@[simp] theorem State.halt_regs (s : State) : (s.halt).regs = s.regs := rfl
@[simp] theorem State.halt_fl (s : State) : (s.halt).fl = s.fl := rfl
@[simp] theorem State.halt_pc (s : State) : (s.halt).pc = s.pc := rfl
@[simp] theorem State.halt_halted (s : State) : (s.halt).halted = true := rfl
@[simp] theorem State.halt_output (s : State) : (s.halt).output = s.output := rfl
@[simp] theorem State.halt_faultCode (s : State) : (s.halt).faultCode = s.faultCode := rfl
@[simp] theorem State.halt_faultPc (s : State) : (s.halt).faultPc = s.faultPc := rfl
@[simp] theorem State.halt_faultInfo (s : State) : (s.halt).faultInfo = s.faultInfo := rfl

/-! ### `advance` -/

@[simp] theorem State.advance_mem (s : State) (n : Nat) : (s.advance n).mem = s.mem := rfl
@[simp] theorem State.advance_regs (s : State) (n : Nat) : (s.advance n).regs = s.regs := rfl
@[simp] theorem State.advance_fl (s : State) (n : Nat) : (s.advance n).fl = s.fl := rfl
@[simp] theorem State.advance_pc (s : State) (n : Nat) : (s.advance n).pc = BitVec.ofNat 9 (s.pc.toNat + n) := rfl
@[simp] theorem State.advance_halted (s : State) (n : Nat) : (s.advance n).halted = s.halted := rfl
@[simp] theorem State.advance_output (s : State) (n : Nat) : (s.advance n).output = s.output := rfl
@[simp] theorem State.advance_faultCode (s : State) (n : Nat) : (s.advance n).faultCode = s.faultCode := rfl
@[simp] theorem State.advance_faultPc (s : State) (n : Nat) : (s.advance n).faultPc = s.faultPc := rfl
@[simp] theorem State.advance_faultInfo (s : State) (n : Nat) : (s.advance n).faultInfo = s.faultInfo := rfl

/-! ### `jumpTo` -/

@[simp] theorem State.jumpTo_mem (s : State) (v : Byte) : (s.jumpTo v).mem = s.mem := rfl
@[simp] theorem State.jumpTo_regs (s : State) (v : Byte) : (s.jumpTo v).regs = s.regs := rfl
@[simp] theorem State.jumpTo_fl (s : State) (v : Byte) : (s.jumpTo v).fl = s.fl := rfl
@[simp] theorem State.jumpTo_pc (s : State) (v : Byte) : (s.jumpTo v).pc = v.setWidth 9 := rfl
@[simp] theorem State.jumpTo_halted (s : State) (v : Byte) : (s.jumpTo v).halted = s.halted := rfl
@[simp] theorem State.jumpTo_output (s : State) (v : Byte) : (s.jumpTo v).output = s.output := rfl
@[simp] theorem State.jumpTo_faultCode (s : State) (v : Byte) : (s.jumpTo v).faultCode = s.faultCode := rfl
@[simp] theorem State.jumpTo_faultPc (s : State) (v : Byte) : (s.jumpTo v).faultPc = s.faultPc := rfl
@[simp] theorem State.jumpTo_faultInfo (s : State) (v : Byte) : (s.jumpTo v).faultInfo = s.faultInfo := rfl

/-! ### `branchIf` -/

@[simp] theorem State.branchIf_mem (s : State) (c : Bool) (v : Byte) (n : Nat) : (s.branchIf c v n).mem = s.mem := by
  cases c <;> rfl
@[simp] theorem State.branchIf_regs (s : State) (c : Bool) (v : Byte) (n : Nat) : (s.branchIf c v n).regs = s.regs := by
  cases c <;> rfl
@[simp] theorem State.branchIf_fl (s : State) (c : Bool) (v : Byte) (n : Nat) : (s.branchIf c v n).fl = s.fl := by
  cases c <;> rfl
@[simp] theorem State.branchIf_pc (s : State) (c : Bool) (v : Byte) (n : Nat) :
    (s.branchIf c v n).pc = if c then v.setWidth 9 else BitVec.ofNat 9 (s.pc.toNat + n) := by
  cases c <;> rfl
@[simp] theorem State.branchIf_halted (s : State) (c : Bool) (v : Byte) (n : Nat) : (s.branchIf c v n).halted = s.halted := by
  cases c <;> rfl
@[simp] theorem State.branchIf_output (s : State) (c : Bool) (v : Byte) (n : Nat) : (s.branchIf c v n).output = s.output := by
  cases c <;> rfl
@[simp] theorem State.branchIf_faultCode (s : State) (c : Bool) (v : Byte) (n : Nat) : (s.branchIf c v n).faultCode = s.faultCode := by
  cases c <;> rfl
@[simp] theorem State.branchIf_faultPc (s : State) (c : Bool) (v : Byte) (n : Nat) : (s.branchIf c v n).faultPc = s.faultPc := by
  cases c <;> rfl
@[simp] theorem State.branchIf_faultInfo (s : State) (c : Bool) (v : Byte) (n : Nat) : (s.branchIf c v n).faultInfo = s.faultInfo := by
  cases c <;> rfl

/-! ### `enterFault` -/

@[simp] theorem enterFault_mem (e : Exception) (s : State) : (enterFault e s).mem = s.mem := rfl
@[simp] theorem enterFault_regs (e : Exception) (s : State) : (enterFault e s).regs = s.regs := rfl
@[simp] theorem enterFault_fl (e : Exception) (s : State) : (enterFault e s).fl = s.fl := rfl
@[simp] theorem enterFault_pc (e : Exception) (s : State) : (enterFault e s).pc = s.pc := rfl
@[simp] theorem enterFault_halted (e : Exception) (s : State) : (enterFault e s).halted = s.halted := rfl
@[simp] theorem enterFault_output (e : Exception) (s : State) : (enterFault e s).output = s.output := rfl
@[simp] theorem enterFault_faultCode (e : Exception) (s : State) : (enterFault e s).faultCode = e.code := rfl
@[simp] theorem enterFault_faultPc (e : Exception) (s : State) : (enterFault e s).faultPc = s.pc := rfl
@[simp] theorem enterFault_faultInfo (e : Exception) (s : State) : (enterFault e s).faultInfo = e.info := rfl

/-! ### `storeAtPc` -/

@[simp] theorem storeAtPc_mem (bs : List Byte) (s : State) : (storeAtPc bs s).mem = s.mem.putList s.pc.toNat bs := rfl
@[simp] theorem storeAtPc_regs (bs : List Byte) (s : State) : (storeAtPc bs s).regs = s.regs := rfl
@[simp] theorem storeAtPc_fl (bs : List Byte) (s : State) : (storeAtPc bs s).fl = s.fl := rfl
@[simp] theorem storeAtPc_pc (bs : List Byte) (s : State) : (storeAtPc bs s).pc = s.pc := rfl
@[simp] theorem storeAtPc_halted (bs : List Byte) (s : State) : (storeAtPc bs s).halted = s.halted := rfl
@[simp] theorem storeAtPc_output (bs : List Byte) (s : State) : (storeAtPc bs s).output = s.output := rfl
@[simp] theorem storeAtPc_faultCode (bs : List Byte) (s : State) : (storeAtPc bs s).faultCode = s.faultCode := rfl
@[simp] theorem storeAtPc_faultPc (bs : List Byte) (s : State) : (storeAtPc bs s).faultPc = s.faultPc := rfl
@[simp] theorem storeAtPc_faultInfo (bs : List Byte) (s : State) : (storeAtPc bs s).faultInfo = s.faultInfo := rfl

/-! ### `loadByte` -/

@[simp] theorem loadByte_mem (a d : Byte) (s : State) : (loadByte a d s).mem = s.mem.put a.toNat d := rfl
@[simp] theorem loadByte_regs (a d : Byte) (s : State) : (loadByte a d s).regs = s.regs := rfl
@[simp] theorem loadByte_fl (a d : Byte) (s : State) : (loadByte a d s).fl = s.fl := rfl
@[simp] theorem loadByte_pc (a d : Byte) (s : State) : (loadByte a d s).pc = s.pc := rfl
@[simp] theorem loadByte_halted (a d : Byte) (s : State) : (loadByte a d s).halted = s.halted := rfl
@[simp] theorem loadByte_output (a d : Byte) (s : State) : (loadByte a d s).output = s.output := rfl
@[simp] theorem loadByte_faultCode (a d : Byte) (s : State) : (loadByte a d s).faultCode = s.faultCode := rfl
@[simp] theorem loadByte_faultPc (a d : Byte) (s : State) : (loadByte a d s).faultPc = s.faultPc := rfl
@[simp] theorem loadByte_faultInfo (a d : Byte) (s : State) : (loadByte a d s).faultInfo = s.faultInfo := rfl

/-! ### Register reads after a write -/

/-- A register read after a write gives the value written, and every other register is as before. -/
theorem State.reg_setReg (s : State) (i j : Fin 8) (v : Byte) :
    (s.setReg i v).reg j = if j = i then v else s.reg j := by
  simp only [State.reg, State.setReg, Vector.getElem_set]
  by_cases h : j = i
  · simp [h]
  · have : i.val ≠ j.val := fun hij => h (Fin.ext hij.symm)
    simp [h, this]

@[simp] theorem State.reg_setReg_same (s : State) (i : Fin 8) (v : Byte) : (s.setReg i v).reg i = v := by
  simp [State.reg_setReg]

/-- A later write to the same register overrides an earlier one (R25). -/
theorem State.setReg_setReg (s : State) (i : Fin 8) (v w : Byte) : (s.setReg i v).setReg i w = s.setReg i w := by
  simp [State.setReg]

@[simp] theorem State.reg_setFlags (s : State) (f : Flags) (j : Fin 8) : (s.setFlags f).reg j = s.reg j := rfl
@[simp] theorem State.reg_emit (s : State) (v : Byte) (j : Fin 8) : (s.emit v).reg j = s.reg j := rfl
@[simp] theorem State.reg_halt (s : State) (j : Fin 8) : (s.halt).reg j = s.reg j := rfl
@[simp] theorem State.reg_advance (s : State) (n : Nat) (j : Fin 8) : (s.advance n).reg j = s.reg j := rfl
@[simp] theorem State.reg_jumpTo (s : State) (v : Byte) (j : Fin 8) : (s.jumpTo v).reg j = s.reg j := rfl
@[simp] theorem State.reg_enterFault (e : Exception) (s : State) (j : Fin 8) : (enterFault e s).reg j = s.reg j := rfl

@[simp] theorem State.reg_with_mem (s : State) (m : Memory) (j : Fin 8) : ({ s with mem := m } : State).reg j = s.reg j := rfl

end Sys2Proof.Machine
end

