-- ==== Sys2Proof/Laws/Ops.lean ====
section
/-! SUPPORT. What each shared operation can answer, once. -/

namespace Sys2Proof.Machine

/-! ### The parameters of this hardware (R6) -/

@[simp] theorem hardware_spIndex : Config.hardware.spIndex = 7 := rfl

@[simp] theorem hardware_spWrap : Config.hardware.spWrap = false := rfl

@[simp] theorem hardware_strictPrefetch : Config.hardware.strictPrefetch = true := rfl

@[simp] theorem hardware_flReset : Config.hardware.flReset = ⟨false, false, false⟩ := rfl

/-! ### The end of a step -/

@[simp] theorem finish_ok (s t : State) : finish s (.ok t) = .next t := rfl

@[simp] theorem finish_error (s : State) (e : Exception) : finish s (.error e) = .next (enterFault e s) := rfl

/-- The end of a step is a next state: the working copy, or the fault entry from the state before. -/
theorem finish_cases (s t : State) (w : Except Exception State) (h : finish s w = .next t) :
    w = .ok t ∨ ∃ e, w = .error e ∧ t = enterFault e s := by
  cases w with
  | ok u => left; cases h; rfl
  | error e => right; cases h; exact ⟨e, rfl, rfl⟩

theorem finish_isNext (s : State) (w : Except Exception State) : ∃ t, finish s w = .next t := by
  cases w with
  | ok u => exact ⟨u, rfl⟩
  | error e => exact ⟨_, rfl⟩

/-- An exception has a code of its own. -/
theorem Exception.code_ne_none (e : Exception) : e.code ≠ .none := by
  cases e <;> simp [Exception.code]

/-! ### Memory accesses -/

theorem inMemory_iff (addr : Int) : inMemory addr = true ↔ 0 ≤ addr ∧ addr < 256 := by
  simp [inMemory]

theorem memRead_of_lt (n : Nat) (s : State) (h : n < 256) : memRead n s = .ok (s.mem.get n) := by
  have : inMemory (n : Int) = true := (inMemory_iff _).2 (by omega)
  simp [memRead, this]

theorem memRead_of_ge (n : Nat) (s : State) (h : 256 ≤ n) : memRead n s = .error (.outOfBounds .memory n) := by
  have : inMemory (n : Int) = false := by
    rw [Bool.eq_false_iff, ne_eq, inMemory_iff]; omega
  simp [memRead, this]

/-- A read at an 8-bit address never raises (R130: "can never raise"). -/
@[simp] theorem memRead_byte (v : Byte) (s : State) : memRead v.toNat s = .ok (s.mem.get v.toNat) :=
  memRead_of_lt v.toNat s v.isLt

/-- A write at an 8-bit address never raises (R130: "can never raise"). -/
@[simp] theorem memWrite_byte (a v : Byte) (s : State) :
    memWrite a.toNat v s = .ok { s with mem := s.mem.put a.toNat v } := by
  have : inMemory (a.toNat : Int) = true := (inMemory_iff _).2 (by have := a.isLt; omega)
  simp [memWrite, this]

/-! ### The stack pointer -/

/-- `SpDec()` gives the stack pointer one below (or 255 from 0 when it may wrap), and changes nothing else, or raises. -/
theorem spDec_cases (p : Params) (s : State) :
    (s.reg p.spIndex = 0 ∧ p.spWrap = true ∧ spDec p s = .ok (s.setReg p.spIndex 255)) ∨
    (s.reg p.spIndex = 0 ∧ p.spWrap = false ∧ spDec p s = .error (.outOfBounds .stack (-1))) ∨
    (s.reg p.spIndex ≠ 0 ∧ spDec p s = .ok (s.setReg p.spIndex (s.reg p.spIndex - 1))) := by
  unfold spDec
  by_cases h : s.reg p.spIndex = 0
  · cases hw : p.spWrap <;> simp [h]
  · exact .inr (.inr ⟨h, if_neg h⟩)

/-- `SpInc()` gives the stack pointer one above (or 0 from 255 when it may wrap), and changes nothing else, or raises. -/
theorem spInc_cases (p : Params) (s : State) :
    (s.reg p.spIndex = 255 ∧ p.spWrap = true ∧ spInc p s = .ok (s.setReg p.spIndex 0)) ∨
    (s.reg p.spIndex = 255 ∧ p.spWrap = false ∧ spInc p s = .error (.outOfBounds .stack 256)) ∨
    (s.reg p.spIndex ≠ 255 ∧ spInc p s = .ok (s.setReg p.spIndex (s.reg p.spIndex + 1))) := by
  unfold spInc
  by_cases h : s.reg p.spIndex = 255
  · cases hw : p.spWrap <;> simp [h]
  · exact .inr (.inr ⟨h, if_neg h⟩)

/-- `SpDec()` on this hardware, away from 0. -/
theorem spDec_hardware_of_ne (s : State) (h : s.reg 7 ≠ 0) :
    spDec Config.hardware s = .ok (s.setReg 7 (s.reg 7 - 1)) := if_neg h

/-- `SpDec()` on this hardware, at 0. -/
theorem spDec_hardware_of_eq (s : State) (h : s.reg 7 = 0) :
    spDec Config.hardware s = .error (.outOfBounds .stack (-1)) := if_pos h

/-- `SpInc()` on this hardware, away from 255. -/
theorem spInc_hardware_of_ne (s : State) (h : s.reg 7 ≠ 255) :
    spInc Config.hardware s = .ok (s.setReg 7 (s.reg 7 + 1)) := if_neg h

/-- `SpInc()` on this hardware, at 255. -/
theorem spInc_hardware_of_eq (s : State) (h : s.reg 7 = 255) :
    spInc Config.hardware s = .error (.outOfBounds .stack 256) := if_pos h

end Sys2Proof.Machine
end

