-- ==== Sys2Proof/Laws/PerInstr.lean ====
section
/-! SUPPORT. Families of statements made per instruction, one lemma per constructor. -/

namespace Sys2Proof.Laws

/-- The encoded form of an instruction (R60 to R62): for any opcode map, the mnemonic's byte, then the operand bytes; as many
bytes as the decoder says the mnemonic has; and reassembling the mnemonic with those operand bytes gives it back. -/
def EncodedForm.Statement (i : Instr) : Prop :=
  ∀ p : Params, (encode p i).head? = some (p.opcodeMap i.mnemonic) ∧ (encode p i).length = i.mnemonic.length ∧
    assemble i.mnemonic (i.operandBytes.getD 0 0) (i.operandBytes.getD 1 0) = i

theorem EncodedForm.hlt : EncodedForm.Statement .hlt := fun _ => ⟨rfl, rfl, rfl⟩
theorem EncodedForm.ldi (a b : Byte) : EncodedForm.Statement (.ldi a b) := fun _ => ⟨rfl, rfl, rfl⟩
theorem EncodedForm.prn (a : Byte) : EncodedForm.Statement (.prn a) := fun _ => ⟨rfl, rfl, rfl⟩
theorem EncodedForm.mul (a b : Byte) : EncodedForm.Statement (.mul a b) := fun _ => ⟨rfl, rfl, rfl⟩
theorem EncodedForm.add (a b : Byte) : EncodedForm.Statement (.add a b) := fun _ => ⟨rfl, rfl, rfl⟩
theorem EncodedForm.cmp (a b : Byte) : EncodedForm.Statement (.cmp a b) := fun _ => ⟨rfl, rfl, rfl⟩
theorem EncodedForm.push (a : Byte) : EncodedForm.Statement (.push a) := fun _ => ⟨rfl, rfl, rfl⟩
theorem EncodedForm.pop (a : Byte) : EncodedForm.Statement (.pop a) := fun _ => ⟨rfl, rfl, rfl⟩
theorem EncodedForm.call (a : Byte) : EncodedForm.Statement (.call a) := fun _ => ⟨rfl, rfl, rfl⟩
theorem EncodedForm.ret : EncodedForm.Statement .ret := fun _ => ⟨rfl, rfl, rfl⟩
theorem EncodedForm.jmp (a : Byte) : EncodedForm.Statement (.jmp a) := fun _ => ⟨rfl, rfl, rfl⟩
theorem EncodedForm.jeq (a : Byte) : EncodedForm.Statement (.jeq a) := fun _ => ⟨rfl, rfl, rfl⟩
theorem EncodedForm.jne (a : Byte) : EncodedForm.Statement (.jne a) := fun _ => ⟨rfl, rfl, rfl⟩

end Sys2Proof.Laws
end

