-- ==== Sys2Proof/Laws/Step.lean ====
section
/-! SUPPORT. What fetch, decode and the shared step can answer. -/

namespace Sys2Proof.Machine

/-- The three reads of a fetch succeed at 253 and below. -/
theorem fetch_of_le (s : State) (h : s.pc.toNat ≤ 253) :
    fetch s = .ok ⟨s.mem.get s.pc.toNat, s.mem.get (s.pc.toNat + 1), s.mem.get (s.pc.toNat + 2)⟩ := by
  have h0 := memRead_of_lt s.pc.toNat s (by omega)
  have h1 := memRead_of_lt (s.pc.toNat + 1) s (by omega)
  have h2 := memRead_of_lt (s.pc.toNat + 2) s (by omega)
  simp only [Int.natCast_add, Int.cast_ofNat_Int] at h1 h2
  simp [fetch, h0, h1, h2, bind, Except.bind, pure, Except.pure]

/-- A fetch raises for the first of its three bytes that lies at 256 or above. -/
theorem fetch_of_first_ge (s : State) (k : Nat) (hk : k ≤ 2) (h : 256 ≤ s.pc.toNat + k)
    (hj : ∀ j, j < k → s.pc.toNat + j < 256) : fetch s = .error (.outOfBounds .memory (s.pc.toNat + k)) := by
  have good (j : Nat) (h : s.pc.toNat + j < 256) := memRead_of_lt (s.pc.toNat + j) s h
  have bad := memRead_of_ge (s.pc.toNat + k) s h
  rcases k with _ | _ | _ | k
  · simp at bad
    simp [fetch, bad, bind, Except.bind]
  · have h0 := good 0 (hj 0 (by omega))
    simp at bad h0
    simp [fetch, bad, h0, bind, Except.bind]
  · have h0 := good 0 (hj 0 (by omega))
    have h1 := good 1 (hj 1 (by omega))
    simp at bad h0 h1
    simp [fetch, bad, h0, h1, bind, Except.bind]
  · omega

/-- A candidate operand that is not used, or lies in range, is read, as 0 past the last cell. -/
theorem lazyCandidate_of_ok (used : Bool) (n : Nat) (s : State) (h : used = true → n < 256) :
    lazyCandidate used n s = .ok (if n < 256 then s.mem.get n else 0) := by
  unfold lazyCandidate
  by_cases hn : n < 256
  · have hin : inMemory (n : Int) = true := (inMemory_iff _).2 (by omega)
    simp [hin, hn, memRead_of_lt n s hn]
  · have hin : inMemory (n : Int) = false := by
      rw [Bool.eq_false_iff, ne_eq, inMemory_iff]; omega
    have hu : used = false := by cases used <;> simp_all
    simp [hin, hn, hu]

/-- A candidate operand that is used and out of range raises. -/
theorem lazyCandidate_of_used (n : Nat) (s : State) (h : 256 ≤ n) :
    lazyCandidate true n s = .error (.outOfBounds .memory n) := by
  simp [lazyCandidate, memRead_of_ge n s h]

/-- Fetch and decode with a strict prefetch at 253 and below. -/
theorem fetchDecode_strict (p : Params) (hp : p.strictPrefetch = true) (s : State) (h : s.pc.toNat ≤ 253) :
    fetchDecode p s =
      match decodeOpcode p (s.mem.get s.pc.toNat) with
      | some m => .ok (assemble m (s.mem.get (s.pc.toNat + 1)) (s.mem.get (s.pc.toNat + 2)))
      | none   => .error (.invalidInstruction (s.mem.get s.pc.toNat)) := by
  simp only [fetchDecode, hp, if_true, fetch_of_le s h, decodeStage, bind, Except.bind, pure, Except.pure]
  cases decodeOpcode p (s.mem.get s.pc.toNat) <;> rfl

/-- A step of a running core is the fault entry of fetch or decode, or the instruction. -/
theorem cycle_running (p : Params) (run : Instr → State → Host.Outcome State Fault Refusal) (s : State)
    (hh : s.halted = false) (hf : s.faultCode = .none) :
    cycle p run s = match fetchDecode p s with
      | .error e => .next (enterFault e s)
      | .ok i    => run i s := by
  unfold cycle
  cases fetchDecode p s <;> simp [hh, hf]

/-- The executor for the defaults is `exec`. -/
theorem execWith_hardware (i : Instr) (s : State) : execWith Config.hardware i s = exec i s := by cases i <;> rfl

/-- The parameterised core at the defaults is this hardware. -/
theorem stepWith_hardware (s : State) : stepWith Config.hardware s = step s := by
  have : execWith Config.hardware = exec := by funext i t; exact execWith_hardware i t
  simp [stepWith, step, this]

/-- A run of one step more, where the step has a next state. -/
theorem core_run_of_next (k : Nat) (s t : State) (h : step s = .next t) :
    Host.Core.run Sys2Proof.core (k + 1) s = Host.Core.run Sys2Proof.core k t := by
  have unroll : ∀ (M : Host.Core) (n : Nat) (x y : M.State), M.step x = .next y → M.run (n + 1) x = M.run n y := by
    intro M n x y hxy
    simp only [Host.Core.run, hxy]
  exact unroll Sys2Proof.core k s t h

end Sys2Proof.Machine
end

