-- ==== Sys2Proof/Tests/Slice0.lean ====
section
/-! SUPPORT. The author's own tests, with expected values from spec/95_test_vectors.md (a vector's name stands in the comment)
and the encodings of 30_encoding.md; and, for each obligation with hypotheses, a theorem that shows what meets them. -/

namespace Sys2Proof.Tests

open Sys2Proof Sys2Proof.Machine

/-! ### Helpers -/

/-- The next state of an outcome. -/
def nextOf : Host.Outcome State Fault Refusal → Option State
  | .next t => some t
  | .fault _ => none
  | .refused _ => none

/-- A running core with `bytes` at `pc` and up, the registers given, and everything else as after reset. -/
def start (pc : PcWord) (bytes : List Byte) (regs : Vector Byte 8 := #v[0, 0, 0, 0, 0, 0, 0, 0xF4]) : State :=
  storeAtPc bytes { State.reset with pc := pc, regs := regs }

/-- The same core with one more byte of memory. -/
def withByte (s : State) (a : Nat) (v : Byte) : State := { s with mem := s.mem.put a v }

/-- One step of this hardware. -/
def next (s : State) : Option State := nextOf (step s)

/-- STRICT_PREFETCH = false (R82). -/
def lazyFetch : Params := { Config.hardware with strictPrefetch := false }

/-- SP_WRAP = true (R130). -/
def wrapping : Params := { Config.hardware with spWrap := true }

/-- An opcode map that exchanges the bytes of ADD and MUL, still injective. -/
def exchanged : Params :=
  { Config.hardware with
    opcodeMap := fun m => if m = .add then 0xA2 else if m = .mul then 0xA0 else Config.defaultOpcode m }

/-! ### WellFormed: each check refuses an ill-formed term -/

theorem test_wellFormed_all_below_eight : (Instr.ldi 7 255).wellFormed = true ∧ Instr.hlt.wellFormed = true := by decide
theorem test_wellFormed_refuses_first_operand :
    (Instr.ldi 8 0).wellFormed = false ∧ (Instr.jmp 255).wellFormed = false ∧ (Instr.mul 8 0).wellFormed = false := by decide
theorem test_wellFormed_refuses_second_operand :
    (Instr.mul 0 8).wellFormed = false ∧ (Instr.add 0 8).wellFormed = false ∧ (Instr.cmp 7 9).wellFormed = false := by decide

/-! ### Decode: words written out from the table of R63 and the formats of R60 -/

theorem test_decode_hlt : decodeTableWord 8 0b00000001 = some .hlt := by decide
theorem test_decode_ldi : decodeTableWord 24 0b00001000_00000011_10000010 = some (.ldi 3 8) := by decide
theorem test_decode_prn : decodeTableWord 16 0b00000010_01000111 = some (.prn 2) := by decide
theorem test_decode_mul : decodeTableWord 24 0b00000101_00000100_10100010 = some (.mul 4 5) := by decide
theorem test_decode_add : decodeTableWord 24 0b00000001_00000110_10100000 = some (.add 6 1) := by decide
theorem test_decode_cmp : decodeTableWord 24 0b00000000_00000111_10100111 = some (.cmp 7 0) := by decide
theorem test_decode_push : decodeTableWord 16 0b00000111_01000101 = some (.push 7) := by decide
theorem test_decode_pop : decodeTableWord 16 0b00000001_01000110 = some (.pop 1) := by decide
theorem test_decode_call : decodeTableWord 16 0b00000001_01010000 = some (.call 1) := by decide
theorem test_decode_ret : decodeTableWord 8 0b00010001 = some .ret := by decide
theorem test_decode_jmp : decodeTableWord 16 0b00000011_01010100 = some (.jmp 3) := by decide
theorem test_decode_jeq : decodeTableWord 16 0b11111111_01010101 = some (.jeq 255) := by decide
theorem test_decode_jne : decodeTableWord 16 0b00000010_01010110 = some (.jne 2) := by decide

/-- R68 and R69: bytes that look like instructions and are none (LS-8's SUB, 0x00, 0xFF); and too few bytes. -/
theorem test_decode_rejects_by_name :
    decode Config.hardware [0xA1, 0, 1] = .error (.invalidOpcode 0xA1) ∧
    decode Config.hardware [0x00] = .error (.invalidOpcode 0) ∧
    decode Config.hardware [0xFF, 1] = .error (.invalidOpcode 0xFF) ∧
    decode Config.hardware [0x82, 0] = .error .truncated ∧
    decode Config.hardware [0x47] = .error .truncated ∧
    decode Config.hardware [] = .error .truncated := ⟨rfl, rfl, rfl, rfl, rfl, rfl⟩

/-- R71's own examples. -/
theorem test_assembly_text : (Instr.ldi 0 8).text = "LDI R0, 8" ∧ (Instr.mul 0 1).text = "MUL R0, R1" ∧
    (Instr.jeq 2).text = "JEQ R2" ∧ Instr.hlt.text = "HLT" := by decide

/-- R67: every opcode byte fits the layout AABCDDDD. -/
theorem test_opcode_subfields : Mnemonic.all.all (fun m =>
    let op := Config.defaultOpcode m
    (op.extractLsb' 6 2).toNat == m.nops && op.getLsbD 5 == m.aluOp.isSome &&
      op.getLsbD 4 == decide (m.pcPolicy ≠ .advance)) = true := by decide

/-- R31: the byte view of FL. -/
theorem test_flagsByte : flagsByte ⟨true, false, false⟩ = 1 ∧ flagsByte ⟨false, true, false⟩ = 2 ∧
    flagsByte ⟨false, false, true⟩ = 4 := by decide

/-! ### One step of each instruction -/

/-- V2. -/
theorem test_hlt : (next (start 0 [0x01, 0xFF, 0xFF])).map (fun t => (t.halted, t.pc)) = some (true, 1) := by decide
/-- V4. -/
theorem test_hlt_at_the_end : next (start 0xFE [0x01]) =
    some ((start 0xFE [0x01]).faultedWith .outOfBounds (.bound .memory 256)) := by decide
/-- V8. -/
theorem test_ldi : (next (start 0 [0x82, 7, 0x10])).map (fun t => (t.reg 7, t.pc)) = some (0x10, 3) := by decide
/-- V9. -/
theorem test_ldi_bad_register : next (start 0 [0x82, 8, 5]) =
    some ((start 0 [0x82, 8, 5]).faultedWith .outOfBounds (.bound .register 8)) := by decide
/-- V12. -/
theorem test_prn : (next (start 0 [0x47, 2, 0xFF] #v[0, 0, 200, 0, 0, 0, 0, 0xF4])).map (fun t => (t.output, t.pc)) =
    some ([200], 2) := by decide
/-- V13. -/
theorem test_prn_bad_register : (next (start 0 [0x47, 8])).map (fun t => (t.output, t.faultInfo)) =
    some ([], .bound .register 8) := by decide
/-- A8. -/
theorem test_mul_wraps : (next (start 0 [0xA2, 0, 1] #v[255, 255, 0, 0, 0, 0, 0, 0xF4])).map (fun t => (t.regs, t.pc)) =
    some (#v[1, 255, 0, 0, 0, 0, 0, 0xF4], 3) := by decide
/-- S2d. -/
theorem test_mul_destination : (next (start 0 [0xA2, 1, 0] #v[3, 4, 0, 0, 0, 0, 0, 0xF4])).map (fun t => t.regs) =
    some #v[3, 12, 0, 0, 0, 0, 0, 0xF4] := by decide
/-- A3. -/
theorem test_add_wraps : (next (start 0 [0xA0, 0, 1] #v[255, 2, 0, 0, 0, 0, 0, 0xF4])).map (fun t => (t.regs, t.pc)) =
    some (#v[1, 2, 0, 0, 0, 0, 0, 0xF4], 3) := by decide
/-- A6. -/
theorem test_add_checks_first_operand_first : (next (start 0 [0xA0, 8, 9])).map (fun t => (t.faultInfo, t.pc)) =
    some (.bound .register 8, 0) := by decide
/-- A16. -/
theorem test_cmp_is_unsigned : (next (start 0 [0xA7, 0, 1] #v[255, 0, 0, 0, 0, 0, 0, 0xF4])).map (fun t => (t.fl, t.pc)) =
    some (⟨false, true, false⟩, 3) := by decide
/-- A13: a flag that was set is cleared. -/
theorem test_cmp_clears : (next { start 0 [0xA7, 0, 1] #v[5, 5, 0, 0, 0, 0, 0, 0xF4] with fl := ⟨false, false, true⟩ }).map
    (fun t => (t.fl, t.regs)) = some (⟨true, false, false⟩, #v[5, 5, 0, 0, 0, 0, 0, 0xF4]) := by decide
/-- ST1 and S7. -/
theorem test_push : (next (start 0 [0x45, 0] #v[0x2A, 0, 0, 0, 0, 0, 0, 0xF4])).map
    (fun t => (t.mem.get 0xF3, t.reg 7, t.pc)) = some (0x2A, 0xF3, 2) := by decide
/-- ST2. -/
theorem test_push_stack_pointer : (next (start 0 [0x45, 7])).map (fun t => (t.mem.get 0xF3, t.reg 7)) =
    some (0xF3, 0xF3) := by decide
/-- ST6. -/
theorem test_pop : (next (withByte (start 0 [0x46, 1] #v[0, 0, 0, 0, 0, 0, 0, 0xF3]) 0xF3 0x2A)).map
    (fun t => (t.reg 1, t.reg 7, t.mem.get 0xF3, t.pc)) = some (0x2A, 0xF4, 0x2A, 2) := by decide
/-- ST10. -/
theorem test_pop_stack_pointer : (next (withByte (start 0 [0x46, 7] #v[0, 0, 0, 0, 0, 0, 0, 0xF3]) 0xF3 0x10)).map
    (fun t => t.reg 7) = some 0x11 := by decide
/-- T1. -/
theorem test_call : (next (start 6 [0x50, 1] #v[0, 0x20, 0, 0, 0, 0, 0, 0xF4])).map
    (fun t => (t.mem.get 0xF3, t.reg 7, t.pc)) = some (8, 0xF3, 0x20) := by decide
/-- T2. -/
theorem test_call_stack_pointer : (next (start 0x10 [0x50, 7])).map (fun t => (t.mem.get 0xF3, t.reg 7, t.pc)) =
    some (0x12, 0xF3, 0xF3) := by decide
/-- T8. -/
theorem test_ret : (next (withByte (start 0 [0x11, 9, 9] #v[0, 0, 0, 0, 0, 0, 0, 0xF3]) 0xF3 0x40)).map
    (fun t => (t.pc, t.reg 7, t.faultCode)) = some (0x40, 0xF4, .none) := by decide
/-- T9. -/
theorem test_ret_stack_bound : (next (withByte (start 0 [0x11] #v[0, 0, 0, 0, 0, 0, 0, 0xFF]) 0xFF 0x40)).map
    (fun t => (t.faultCode, t.faultInfo, t.pc)) = some (.outOfBounds, .bound .stack 256, 0) := by decide
/-- T12. -/
theorem test_jmp : (next (start 0 [0x54, 1] #v[0, 0xFE, 0, 0, 0, 0, 0, 0xF4])).map (fun t => t.pc) = some 0xFE := by decide
/-- T13. -/
theorem test_jeq_taken : (next { start 0 [0x55, 1] #v[0, 0x30, 0, 0, 0, 0, 0, 0xF4] with fl := ⟨true, false, false⟩ }).map
    (fun t => t.pc) = some 0x30 := by decide
/-- T14. -/
theorem test_jeq_not_taken : (next { start 0 [0x55, 1] #v[0, 0x30, 0, 0, 0, 0, 0, 0xF4] with
    fl := ⟨false, true, false⟩ }).map (fun t => t.pc) = some 2 := by decide
/-- T16. -/
theorem test_jne_taken : (next { start 0 [0x56, 1] #v[0, 0x30, 0, 0, 0, 0, 0, 0xF4] with fl := ⟨false, false, true⟩ }).map
    (fun t => t.pc) = some 0x30 := by decide
/-- T17. -/
theorem test_jne_not_taken : (next { start 0 [0x56, 1] #v[0, 0x30, 0, 0, 0, 0, 0, 0xF4] with
    fl := ⟨true, false, false⟩ }).map (fun t => t.pc) = some 2 := by decide

/-! ### Fetch, decode, the settings of R6, the alu and the host -/

/-- X6 and X4: the opcode fetch; and the fetch outranks the decode. -/
theorem test_fetch_faults :
    next (start 256 []) = some ((start 256 []).faultedWith .outOfBounds (.bound .memory 256)) ∧
    next (start 0xFF []) = some ((start 0xFF []).faultedWith .outOfBounds (.bound .memory 256)) := by decide
/-- S8c: LDI at 0xFD commits with pc = 256. -/
theorem test_pc_reaches_256 : (next (start 0xFD [0x82, 0, 9])).map (fun t => (t.reg 0, t.pc)) = some (9, 256) := by decide
/-- X1 and S9: nothing loaded. -/
theorem test_first_step_of_empty_memory : (next State.reset).map (fun t => (t.faultCode, t.faultPc, t.faultInfo)) =
    some (.invalidInstruction, 0, .opcode 0) := by decide
/-- V6, V15, V11 and X5, with STRICT_PREFETCH = false. -/
theorem test_lazy_fetch :
    (nextOf (stepWith lazyFetch (start 0xFF [0x01]))).map (fun t => (t.halted, t.pc)) = some (true, 256) ∧
    (nextOf (stepWith lazyFetch (start 0xFF [0x47]))).map (fun t => t.faultInfo) = some (.bound .memory 256) ∧
    (nextOf (stepWith lazyFetch (start 0xFE [0x82, 0]))).map (fun t => t.faultInfo) = some (.bound .memory 256) ∧
    (nextOf (stepWith lazyFetch (start 0xFE [0x00]))).map (fun t => t.faultInfo) = some (.opcode 0) := by decide
/-- T4, with STRICT_PREFETCH = false: CALL's return address does not fit a cell. -/
theorem test_lazy_call : (nextOf (stepWith lazyFetch (start 0xFE [0x50, 1] #v[0, 0x40, 0, 0, 0, 0, 0, 0xF4]))).map
    (fun t => (t.faultInfo, t.faultPc, t.reg 7)) = some (.bound .memory 256, 0xFE, 0xF4) := by decide
/-- ST4 and ST9, with SP_WRAP = true. -/
theorem test_stack_pointer_wraps :
    (nextOf (stepWith wrapping (start 0 [0x45, 0] #v[3, 0, 0, 0, 0, 0, 0, 0]))).map
      (fun t => (t.reg 7, t.mem.get 255)) = some (255, 3) ∧
    (nextOf (stepWith wrapping (withByte (start 0 [0x46, 0] #v[0, 0, 0, 0, 0, 0, 0, 0xFF]) 255 0x77))).map
      (fun t => (t.reg 0, t.reg 7)) = some (0x77, 0) := by decide
/-- A20. -/
theorem test_alu_selector_3 : alu 3 1 2 = .error (.unsupportedOperation 3) ∧
    (Exception.unsupportedOperation 3).code.bits = 3 := ⟨rfl, rfl⟩
/-- R181: what is loaded before a reset is gone after it; R191: no load after the first step. -/
theorem test_host_moves :
    (System.apply Config.hardware .reset ⟨start 9 [0x01], true⟩).map (fun y => y.core.mem.get 9) = some 0 ∧
    System.apply Config.hardware (.load 3 5) ⟨start 0 [0x01], true⟩ = none ∧
    (System.apply Config.hardware (.load 3 5) ⟨start 0 [0x01], false⟩).map (fun y => y.core.mem.get 3) = some 5 ∧
    (System.apply Config.hardware .step ⟨start 0 [0x01], false⟩).map (fun y => (y.started, y.core.halted)) =
      some (true, true) := by decide
/-- The fetch word is what the next step runs. -/
theorem test_withFetchWord : (next (State.reset.withFetchWord 24 0x050382)).map (fun t => (t.reg 3, t.pc)) =
    some (5, 3) := by decide

/-- From a computed next state to the existence of one. -/
theorem exists_next {o : Host.Outcome State Fault Refusal} {P : State → Prop} [DecidablePred P]
    (h : ((nextOf o).any fun t => decide (P t)) = true) : ∃ t, o = .next t ∧ P t := by
  cases o with
  | next t => exact ⟨t, rfl, by simpa [nextOf] using h⟩
  | fault _ => simp [nextOf] at h
  | refused _ => simp [nextOf] at h

/-! ### What meets the hypotheses of the obligations. Each theorem is named after its obligation. -/

theorem witness_DecodeOfEncodeIsTheInstruction : Config.hardware.InjectiveOpcodes ∧ exchanged.InjectiveOpcodes := by
  refine ⟨hardware_injectiveOpcodes, ?_⟩
  intro m n h
  revert h
  cases m <;> cases n <;> decide

theorem witness_EncodeOfDecodeIsTheBytes :
    decode Config.hardware [0x82, 255, 255, 7] = .ok (.ldi 255 255, [7]) ∧
    decode exchanged [0xA2, 7, 0] = .ok (.add 7 0, []) := ⟨rfl, rfl⟩

theorem witness_UnlistedOpcodeRaisesInvalidInstruction :
    (start 0xFD [0xA1]).Running ∧ (start 0xFD [0xA1]).pc.toNat ≤ 253 ∧
    (start 0xFD [0xA1]).mem.get (start 0xFD [0xA1]).pc.toNat = 0xA1 ∧
    (0xA1 : Byte) ∉ ([0x01, 0x82, 0x47, 0xA2, 0xA0, 0xA7, 0x45, 0x46, 0x50, 0x11, 0x54, 0x55, 0x56] : List Byte) := by decide

theorem witness_StepRunsTheDecodedInstruction :
    let s := start 0xFD [0xA7, 7, 8]
    s.Running ∧ s.pc.toNat ≤ 253 ∧
    decode Config.hardware [s.mem.get s.pc.toNat, s.mem.get (s.pc.toNat + 1), s.mem.get (s.pc.toNat + 2)] =
      .ok (.cmp 7 8, []) := ⟨by decide, by decide, rfl⟩

/-- The first byte out of range is byte 0 at 256, byte 1 at 255, byte 2 at 254; and at 253 a step ends without a fault. -/
theorem witness_FetchRaisesForTheFirstByteOutOfRange :
    (start 253 [0x01]).pc.toNat ≤ 253 ∧
    (start 256 []).Running ∧ 256 ≤ (start 256 []).pc.toNat + 0 ∧
    (start 255 []).Running ∧ 256 ≤ (start 255 []).pc.toNat + 1 ∧ (∀ j, j < 1 → (start 255 []).pc.toNat + j < 256) ∧
    (start 254 []).Running ∧ 256 ≤ (start 254 []).pc.toNat + 2 ∧ (∀ j, j < 2 → (start 254 []).pc.toNat + j < 256) ∧
    (∃ t, step (start 253 [0x01]) = .next t ∧ t.faultCode = .none) :=
  ⟨by decide, by decide, by decide, by decide, by decide, by decide, by decide, by decide, by decide, exists_next (by decide)⟩

/-- Opcode out of range at 256; invalid opcode at 255; HLT at 255, PRN at 254 and LDI at 253 in range; LDI at 254 and 255 not. -/
theorem witness_LazyFetchChecksOnlyTheOwnBytes :
    lazyFetch.strictPrefetch = false ∧
    ((start 256 []).Running ∧ 256 ≤ (start 256 []).pc.toNat) ∧
    ((start 255 [0]).Running ∧ (start 255 [0]).pc.toNat < 256 ∧
      decodeOpcode lazyFetch ((start 255 [0]).mem.get (start 255 [0]).pc.toNat) = none) ∧
    ((start 255 [1]).Running ∧
      decodeOpcode lazyFetch ((start 255 [1]).mem.get (start 255 [1]).pc.toNat) = some .hlt ∧
      (start 255 [1]).pc.toNat + Mnemonic.hlt.length - 1 ≤ 255) ∧
    ((start 254 [0x47]).Running ∧
      decodeOpcode lazyFetch ((start 254 [0x47]).mem.get (start 254 [0x47]).pc.toNat) = some .prn ∧
      (start 254 [0x47]).pc.toNat + Mnemonic.prn.length - 1 ≤ 255) ∧
    ((start 254 [0x82]).Running ∧
      decodeOpcode lazyFetch ((start 254 [0x82]).mem.get (start 254 [0x82]).pc.toNat) = some .ldi ∧
      2 < Mnemonic.ldi.length ∧ 256 ≤ (start 254 [0x82]).pc.toNat + 2 ∧
      (∀ j, j < 2 → (start 254 [0x82]).pc.toNat + j < 256)) ∧
    ((start 255 [0x82]).Running ∧
      decodeOpcode lazyFetch ((start 255 [0x82]).mem.get (start 255 [0x82]).pc.toNat) = some .ldi ∧
      1 < Mnemonic.ldi.length ∧ 256 ≤ (start 255 [0x82]).pc.toNat + 1 ∧
      (∀ j, j < 1 → (start 255 [0x82]).pc.toNat + j < 256)) := by decide

/-- HLT with either candidate byte, PRN with its second. -/
theorem witness_UnusedCandidateBytesAreIgnored :
    let s := start 253 [0x01, 9, 9]
    let u := start 0 [0x47, 2]
    (s.Running ∧ s.mem.wf = true ∧ s.pc.toNat ≤ 253 ∧
      decodeOpcode Config.hardware (s.mem.get s.pc.toNat) = some .hlt ∧ Mnemonic.hlt.length ≤ 1 ∧ (1 : Nat) ≤ 2) ∧
    (u.Running ∧ u.mem.wf = true ∧ u.pc.toNat ≤ 253 ∧
      decodeOpcode Config.hardware (u.mem.get u.pc.toNat) = some .prn ∧ Mnemonic.prn.length ≤ 2 ∧ (2 : Nat) ≤ 2) := by
  decide

theorem witness_StepsExactlyWhileRunning :
    (start 0 []).Running ∧ State.status { start 1 [] with halted := true } = .endedWell ∧
    State.status { start 1 [] with faultCode := .outOfBounds } = .endedBadly := by decide

/-- An operand of 8 and of 255, first and second; a stack fault of a well-formed PUSH and POP; CALL at 254. -/
theorem witness_OperandCheckComesFirstAndInOrder :
    (Instr.jmp 8).registerOperands.find? (fun x => decide (8 ≤ x.toNat)) = some 8 ∧
    (Instr.cmp 7 255).registerOperands.find? (fun x => decide (8 ≤ x.toNat)) = some 255 ∧
    (Instr.cmp 9 8).registerOperands.find? (fun x => decide (8 ≤ x.toNat)) = some 9 ∧
    (∃ t, (start 0 [] (Vector.replicate 8 0)).Running ∧ (Instr.push 7).wellFormed = true ∧
      exec (.push 7) (start 0 [] (Vector.replicate 8 0)) = .next t ∧ t.faultCode ≠ .none) ∧
    (∃ t, (start 0 [] (Vector.replicate 8 255)).Running ∧ (Instr.pop 0).wellFormed = true ∧
      exec (.pop 0) (start 0 [] (Vector.replicate 8 255)) = .next t ∧ t.faultCode ≠ .none) ∧
    (∃ t, (start 254 []).Running ∧ (Instr.call 0).wellFormed = true ∧
      exec (.call 0) (start 254 []) = .next t ∧ t.faultCode ≠ .none) :=
  ⟨rfl, rfl, rfl, ⟨_, by decide, rfl, rfl, by decide⟩, ⟨_, by decide, rfl, rfl, by decide⟩,
    ⟨_, by decide, rfl, rfl, by decide⟩⟩

/-- The fetch clause at 254 and 256, the decode clause at 253, the operand clause at 253, the last clause at both ends of the
stack pointer's range. -/
theorem witness_OneFaultPerStepInPriorityOrder :
    ((start 254 []).Running ∧ 254 ≤ (start 254 []).pc.toNat ∧ (start 254 []).pc.toNat ≤ 256) ∧
    ((start 256 []).Running ∧ 254 ≤ (start 256 []).pc.toNat ∧ (start 256 []).pc.toNat ≤ 256) ∧
    ((start 253 []).Running ∧ (start 253 []).pc.toNat ≤ 253 ∧
      decodeOpcode Config.hardware ((start 253 []).mem.get (start 253 []).pc.toNat) = none) ∧
    ((start 253 [0x45, 8]).Running ∧ (start 253 [0x45, 8]).pc.toNat ≤ 253 ∧
      decodeOpcode Config.hardware ((start 253 [0x45, 8]).mem.get (start 253 [0x45, 8]).pc.toNat) = some .push ∧
      (assemble .push ((start 253 [0x45, 8]).mem.get ((start 253 [0x45, 8]).pc.toNat + 1))
        ((start 253 [0x45, 8]).mem.get ((start 253 [0x45, 8]).pc.toNat + 2))).registerOperands.find?
          (fun x => decide (8 ≤ x.toNat)) = some 8) ∧
    (∃ t, step (start 253 [0x45, 7] (Vector.replicate 8 0)) = .next t ∧ t.faultCode ≠ .none) ∧
    (∃ t, step (start 253 [0x46, 0] (Vector.replicate 8 255)) = .next t ∧ t.faultCode ≠ .none) :=
  ⟨by decide, by decide, by decide, by decide, ⟨_, rfl, by decide⟩, ⟨_, rfl, by decide⟩⟩

/-- HLT at 253, and at 254 and 255 where the fetch faults; and HLT has a next state. -/
theorem witness_HltHaltsOnePastItsByte :
    ((start 253 [1]).Running ∧ (start 253 [1]).mem.get (start 253 [1]).pc.toNat = 0x01 ∧ (start 253 [1]).pc.toNat ≤ 253) ∧
    ((start 254 [1]).Running ∧ (start 254 [1]).mem.get (start 254 [1]).pc.toNat = 0x01 ∧ (start 254 [1]).pc = 254) ∧
    ((start 255 [1]).Running ∧ (start 255 [1]).mem.get (start 255 [1]).pc.toNat = 0x01 ∧ (start 255 [1]).pc = 255) ∧
    (∃ t, exec .hlt (start 253 [1]) = .next t) := ⟨by decide, by decide, by decide, _, rfl⟩

theorem witness_LdiLoadsTheImmediate : (7 : Byte).toNat < 8 ∧ 8 ≤ (8 : Byte).toNat := by decide

theorem witness_PrnEmitsTheRegister :
    (∃ t, (7 : Byte).toNat < 8 ∧ exec (.prn 7) (start 0 []) = .next t) ∧
    (∃ t, 8 ≤ (8 : Byte).toNat ∧ exec (.prn 8) (start 0 []) = .next t) := ⟨⟨_, by decide, rfl⟩, ⟨_, by decide, rfl⟩⟩

theorem witness_MulMultipliesModulo256 : ((7 : Byte).toNat < 8 ∧ (0 : Byte).toNat < 8) ∧ 8 ≤ (8 : Byte).toNat ∧
    ((7 : Byte).toNat < 8 ∧ 8 ≤ (8 : Byte).toNat) := by decide

theorem witness_AddAddsModulo256 : ((0 : Byte).toNat < 8 ∧ (7 : Byte).toNat < 8) ∧ 8 ≤ (255 : Byte).toNat ∧
    ((7 : Byte).toNat < 8 ∧ 8 ≤ (255 : Byte).toNat) := by decide

/-- All three relations, at the ends of the unsigned range. -/
theorem witness_CmpSetsExactlyOneFlag :
    let s := start 0 [] #v[0, 255, 255, 0, 0, 0, 0, 0xF4]
    ((1 : Byte).toNat < 8 ∧ (2 : Byte).toNat < 8 ∧ s.regs[1].toNat = s.regs[2].toNat) ∧
    ((1 : Byte).toNat < 8 ∧ (0 : Byte).toNat < 8 ∧ s.regs[0].toNat < s.regs[1].toNat) ∧
    8 ≤ (8 : Byte).toNat ∧ ((7 : Byte).toNat < 8 ∧ 8 ≤ (8 : Byte).toNat) := by decide

theorem witness_PushStoresBelowTheStackPointer :
    ((7 : Byte).toNat < 8 ∧ (start 0 [] (Vector.replicate 8 1)).regs[7] ≠ 0) ∧
    ((7 : Byte).toNat < 8 ∧ (start 0 [] (Vector.replicate 8 0)).regs[7] = 0) ∧ 8 ≤ (8 : Byte).toNat := by decide

/-- SP at 254 and 255; for POP R7, a popped value of 254 and 255. -/
theorem witness_PopLoadsFromTheStackPointer :
    let r (v : Byte) := start 0 [] (Vector.replicate 8 v)
    let p (v : Byte) := withByte (r 100) 100 v
    ((6 : Byte).toNat < 8 ∧ (6 : Byte) ≠ 7 ∧ (r 254).regs[7] ≠ 255) ∧
    ((p 254).mem.get (p 254).regs[7].toNat ≠ 255) ∧
    ((0 : Byte).toNat < 8 ∧ (0 : Byte) ≠ 7 ∧ (r 255).regs[7] = 255) ∧
    ((p 255).mem.get (p 255).regs[7].toNat = 255) ∧ 8 ≤ (8 : Byte).toNat := by decide

theorem witness_CallPushesTheReturnAddress :
    let r (pc : PcWord) (v : Byte) := start pc [0x50, 1] (Vector.replicate 8 v)
    ((7 : Byte).toNat < 8 ∧ (r 253 1).pc.toNat ≤ 253 ∧ (r 253 1).regs[7] ≠ 0) ∧ 8 ≤ (8 : Byte).toNat ∧
    ((7 : Byte).toNat < 8 ∧ 254 ≤ (r 254 1).pc.toNat) ∧
    ((7 : Byte).toNat < 8 ∧ (r 253 0).pc.toNat ≤ 253 ∧ (r 253 0).regs[7] = 0) ∧
    ((r 253 1).Running ∧ (r 253 1).mem.get (r 253 1).pc.toNat = 0x50 ∧ (r 253 1).pc.toNat ≤ 253) := by decide

theorem witness_RetPopsTheProgramCounter :
    (start 0 [] (Vector.replicate 8 254)).regs[7] ≠ 255 ∧ (start 0 [] (Vector.replicate 8 255)).regs[7] = 255 := by decide

theorem witness_JmpSetsTheProgramCounter : (7 : Byte).toNat < 8 ∧ 8 ≤ (8 : Byte).toNat := by decide

theorem witness_JeqJumpsWhenEqual :
    ((7 : Byte).toNat < 8 ∧ State.fl { start 0 [] with fl := ⟨true, false, false⟩ } = ⟨true, false, false⟩) ∧
    ((7 : Byte).toNat < 8 ∧ (start 0 []).fl.E = false) ∧ 8 ≤ (8 : Byte).toNat := by decide

theorem witness_JneJumpsWhenNotEqual :
    ((0 : Byte).toNat < 8 ∧ (start 0 []).fl.E = false) ∧
    ((0 : Byte).toNat < 8 ∧ State.fl { start 0 [] with fl := ⟨true, false, false⟩ } = ⟨true, false, false⟩) ∧
    8 ≤ (255 : Byte).toNat := by decide

/-- An instruction of each policy that raises nothing, the Advance one ending at pc 256. -/
theorem witness_NextPcFollowsThePolicy :
    ((start 253 []).pc.toNat ≤ 256 ∧ Mnemonic.ldi.pcPolicy = .advance ∧
      ∃ t, exec (.ldi 0 0) (start 253 []) = .next t ∧ t.faultCode = .none ∧ t.pc = 256) ∧
    (∃ t, exec (.jmp 7) (start 253 []) = .next t ∧ t.faultCode = .none) ∧
    (∃ t, exec (.call 7) (start 253 []) = .next t ∧ t.faultCode = .none) ∧
    (∃ t, exec .ret (start 253 []) = .next t ∧ t.faultCode = .none) ∧
    (∃ t, exec (.jeq 7) (start 253 []) = .next t ∧ t.faultCode = .none) ∧
    (∃ t, exec (.jne 7) (start 253 []) = .next t ∧ t.faultCode = .none) :=
  ⟨⟨by decide, rfl, exists_next (by decide)⟩, exists_next (by decide), exists_next (by decide), exists_next (by decide),
    exists_next (by decide), exists_next (by decide)⟩

/-- CMP changes FL; ADD under two values of FL, and JEQ under two that agree on E. -/
theorem witness_FlagsWrittenByCmpReadByJumps :
    (∃ t, exec (.cmp 0 7) (start 0 []) = .next t ∧ t.fl ≠ (start 0 []).fl) ∧
    (∃ t, exec (.add 0 7) (start 0 []) = .next t) ∧
    (∃ t, exec (.jeq 0) (start 0 []) = .next t ∧ Flags.E ⟨false, true, false⟩ = (start 0 []).fl.E) :=
  ⟨⟨_, rfl, by decide⟩, ⟨_, rfl⟩, ⟨_, rfl, rfl⟩⟩

theorem witness_OnlyHltSetsHalted :
    (∃ t, exec .hlt (start 0 []) = .next t ∧ t.halted ≠ (start 0 []).halted) ∧
    (∃ t, step (start 0 [1]) = .next t ∧ t.halted = true) ∧
    State.halted { start 0 [] with halted := true } = true := ⟨⟨_, rfl, by decide⟩, ⟨_, rfl, rfl⟩, rfl⟩

theorem witness_OnlyPrnAppendsToOutput :
    ∃ t, exec (.prn 7) (start 0 []) = .next t ∧ t.output ≠ (start 0 []).output := ⟨_, rfl, by decide⟩

/-- A step without a fault and a step with one; a faulted core. -/
theorem witness_FaultEntryRecordsAndChangesNothingElse :
    (∃ t, step (start 0 [1]) = .next t ∧ t.faultCode = .none) ∧
    (∃ t, step (start 0 [0]) = .next t ∧ t.faultCode ≠ .none) ∧
    State.faultCode { start 0 [] with faultCode := .invalidInstruction } ≠ .none :=
  ⟨⟨_, rfl, rfl⟩, ⟨_, rfl, by decide⟩, by decide⟩

theorem witness_UnsupportedOperationIsUnreachable :
    (∃ d, decoder Config.hardware 0xA7 = .ok d ∧ d.aluOp = some .compare) ∧
    (∃ t, stepWith lazyFetch (start 0 [0xA7, 0, 7]) = .next t) := ⟨⟨_, rfl, rfl⟩, ⟨_, rfl⟩⟩

theorem witness_AluComputesUnsignedModulo256 :
    (255 : Byte).toNat = (255 : Byte).toNat ∧ (0 : Byte).toNat < (255 : Byte).toNat := by decide

/-- The stack pointer at 0, 1, 254 and 255, wrapping or not. -/
theorem witness_StackPointerNeverLeavesItsRange :
    let r (v : Byte) := start 0 [] (Vector.replicate 8 v)
    (r 0).reg wrapping.spIndex = 0 ∧ wrapping.spWrap = true ∧ Config.hardware.spWrap = false ∧
    (r 1).reg Config.hardware.spIndex ≠ 0 ∧ (r 254).reg Config.hardware.spIndex ≠ 255 ∧
    (r 255).reg wrapping.spIndex = 255 ∧
    (∃ w, spDec Config.hardware (r 1) = .ok w) ∧ (∃ w, spInc wrapping (r 255) = .ok w) :=
  ⟨rfl, rfl, rfl, by decide, by decide, rfl, ⟨_, rfl⟩, ⟨_, rfl⟩⟩

/-- Addresses at and past both bounds, with a memory that lists a cell. -/
theorem witness_MemoryReadsBackWhatWasWritten :
    (start 255 [7]).mem.wf = true ∧ ((0 : Int) ≤ 0 ∧ (0 : Int) < 256) ∧ ((0 : Int) ≤ 255 ∧ (255 : Int) < 256 ∧ (0 : Int) ≠ 255) ∧
    (-1 : Int) < 0 ∧ (256 : Int) ≤ 256 := by decide

theorem witness_FrameOfRegisterDestination :
    (∃ t, exec (.ldi 7 5) (start 0 []) = .next t ∧ (Instr.ldi 7 5).wellFormed = true) ∧
    (∃ t, exec (.mul 0 7) (start 0 []) = .next t ∧ (Instr.mul 0 7).wellFormed = true) ∧
    (∃ t, exec (.add 7 0) (start 0 []) = .next t ∧ (Instr.add 7 0).wellFormed = true) :=
  ⟨⟨_, rfl, rfl⟩, ⟨_, rfl, rfl⟩, ⟨_, rfl, rfl⟩⟩

theorem witness_FrameOfNoDestination :
    (∃ t, exec .hlt (start 0 []) = .next t) ∧ (∃ t, exec (.prn 0) (start 0 []) = .next t) ∧
    (∃ t, exec (.cmp 0 7) (start 0 []) = .next t) ∧ (∃ t, exec (.jmp 7) (start 0 []) = .next t) ∧
    (∃ t, exec (.jeq 7) (start 0 []) = .next t) ∧ (∃ t, exec (.jne 7) (start 0 []) = .next t) ∧
    (Instr.jne 7).wellFormed = true :=
  ⟨⟨_, rfl⟩, ⟨_, rfl⟩, ⟨_, rfl⟩, ⟨_, rfl⟩, ⟨_, rfl⟩, ⟨_, rfl⟩, rfl⟩

/-- PUSH and CALL that store; SP at 1, so the store is at 0; and SP at 0, where `spDec` raises. -/
theorem witness_FrameOfStackStore :
    (∃ t w, exec (.push 0) (start 0 [] (Vector.replicate 8 1)) = .next t ∧
      spDec Config.hardware (start 0 [] (Vector.replicate 8 1)) = .ok w ∧ 255 ≠ (w.reg 7).toNat) ∧
    (∃ t w, exec (.call 7) (start 0 [] (Vector.replicate 8 1)) = .next t ∧
      spDec Config.hardware (start 0 [] (Vector.replicate 8 1)) = .ok w ∧ 1 ≠ (w.reg 7).toNat) ∧
    (∃ t e, exec (.call 0) (start 0 [] (Vector.replicate 8 0)) = .next t ∧
      spDec Config.hardware (start 0 [] (Vector.replicate 8 0)) = .error e) :=
  ⟨⟨_, _, rfl, rfl, by decide⟩, ⟨_, _, rfl, rfl, by decide⟩, ⟨_, _, rfl, rfl⟩⟩

theorem witness_FrameOfStackLoad :
    (∃ t, exec (.pop 0) (start 0 []) = .next t ∧ t.faultCode = .none) ∧
    (∃ t, exec (.pop 7) (start 0 []) = .next t ∧ t.faultCode = .none) ∧
    (∃ t, exec .ret (start 0 []) = .next t ∧ t.faultCode = .none) :=
  ⟨exists_next (by decide), exists_next (by decide), exists_next (by decide)⟩

/-- An image of 256 bytes and one of 257; a load before the first step, at the last cell. -/
theorem witness_LoadFillsMemoryFromAddressZero :
    (List.replicate 256 (0xFF : Byte)).length ≤ 256 ∧ 256 < (List.replicate 257 (0xFF : Byte)).length ∧
    (start 0 []).mem.wf = true ∧
    (∃ z, System.apply Config.hardware (.load 255 0) ⟨start 255 [7], false⟩ = some z) :=
  ⟨Nat.le_of_eq List.length_replicate, Nat.lt_of_lt_of_eq (Nat.lt_succ_self 256) List.length_replicate.symm, by decide, _,
    rfl⟩

theorem witness_PushThenPopRestoresTheRegister :
    (7 : Byte).toNat < 8 ∧ (start 0 [1] (Vector.replicate 8 1)).regs[7] ≠ 0 ∧
    (start 0 [1] (Vector.replicate 8 1)).mem.wf = true := by decide

theorem witness_CallThenRetReturnsPastTheCall :
    (7 : Byte).toNat < 8 ∧ (start 253 [1] (Vector.replicate 8 1)).pc.toNat ≤ 253 ∧
    (start 253 [1] (Vector.replicate 8 1)).regs[7] ≠ 0 ∧ (start 253 [1] (Vector.replicate 8 1)).mem.wf = true := by decide

/-- ST12: SP points just past the PUSH's own ignored byte, and the pushed value is the HLT byte; and 0, which is no opcode. -/
theorem witness_NextStepExecutesAPushedOpcode :
    let s := start 0 [0x45, 0] #v[1, 0, 0, 0, 0, 0, 0, 3]
    let u := start 251 [0x45, 1] #v[1, 0, 0, 0, 0, 0, 0, 254]
    ((0 : Byte).toNat < 8 ∧ s.Running ∧ s.mem.wf = true ∧ s.pc.toNat = 0 ∧ s.mem.get 0 = 0x45 ∧ s.mem.get 1 = 0 ∧
      s.regs[7].toNat = 0 + 3 ∧ (1 : Byte) = (s.regs.set 7 (s.regs[7] - 1))[0] ∧
      decodeOpcode Config.hardware 1 = some .hlt) ∧
    ((1 : Byte).toNat < 8 ∧ u.Running ∧ u.mem.wf = true ∧ u.pc.toNat = 251 ∧ 251 + 2 ≤ 253 ∧ u.mem.get 251 = 0x45 ∧
      u.mem.get 252 = 1 ∧ u.regs[7].toNat = 251 + 3 ∧ (0 : Byte) = (u.regs.set 7 (u.regs[7] - 1))[1] ∧
      decodeOpcode Config.hardware 0 = none) := by decide

/-- T11. -/
theorem witness_JmpToItselfNeverEnds :
    let s := start 0x20 [0x54, 1] #v[0, 0x20, 0, 0, 0, 0, 0, 0xF4]
    (1 : Byte).toNat < 8 ∧ s.Running ∧ s.pc.toNat ≤ 253 ∧ s.mem.get s.pc.toNat = 0x54 ∧ s.mem.get (s.pc.toNat + 1) = 1 ∧
    s.regs[1].toNat = s.pc.toNat := by decide

theorem witness_FaultStatusIsUnobservableWhileRunning :
    (∃ t, step (start 0 [1]) = .next t ∧ t.faultCode = .none) ∧ (∃ t, step (start 0 [0]) = .next t ∧ t.faultCode ≠ .none) :=
  ⟨⟨_, rfl, rfl⟩, ⟨_, rfl, by decide⟩⟩

theorem witness_PcStaysInRangeForEverySetting :
    (start 256 []).pc.toNat ≤ 256 ∧ (∃ t, stepWith lazyFetch (start 255 [1]) = .next t ∧ t.pc.toNat = 256) :=
  ⟨by decide, _, rfl, rfl⟩

/-- A state that meets the invariant: memory listed, a flag set, the pc away from 0. -/
theorem inv_of_a_running_state :
    State.Inv { start 253 [0x01] with fl := ⟨false, true, false⟩ } where
  memWf := by decide
  pcRange := by decide
  flags := .inr (.inr (.inl rfl))
  oneEnd := by decide
  haltedPastHlt := by decide
  faultRecord := trivial

theorem witness_StepKeepsTheInvariant :
    ∃ s t, s.Inv ∧ step s = .next t ∧ t.halted = true := ⟨_, _, inv_of_a_running_state, rfl, rfl⟩

theorem witness_ReachableStatesMeetTheInvariant :
    ∃ s, Reachable s ∧ s.mem.get 0 = 0x01 := ⟨_, .loaded [0x01] _ rfl, rfl⟩

/-- Every kind of move, from a core with its host that meets the invariant. -/
theorem witness_HostMovesKeepTheInvariant :
    let y : System := ⟨{ start 253 [0x01] with fl := ⟨false, true, false⟩ }, false⟩
    y.Inv ∧ (∃ z, y.apply Config.hardware .reset = some z) ∧ (∃ z, y.apply Config.hardware (.load 255 1) = some z) ∧
    (∃ z, y.apply Config.hardware .step = some z) :=
  ⟨⟨inv_of_a_running_state, fun _ => ⟨rfl, rfl⟩⟩, ⟨_, rfl⟩, ⟨_, rfl⟩, ⟨_, rfl⟩⟩

end Sys2Proof.Tests
end

/-! ## What an instruction can do

The meanings of the thirteen instructions as two relations that speak of the state before: how an instruction completes
(stages 3 and 4 of R80) and what it raises (R166). `execWith` is exactly these two, so that a statement about every
instruction is a case split on them. -/

namespace Sys2Proof.Machine

/-! ### Sequencing of operations that can raise -/

@[simp] theorem ok_bind {α β : Type} (a : α) (f : α → Except Exception β) : (Except.ok a >>= f) = f a := rfl

@[simp] theorem error_bind {α β : Type} (e : Exception) (f : α → Except Exception β) :
    (Except.error e >>= f) = .error e := rfl

@[simp] theorem pure_eq_ok {α : Type} (a : α) : (pure a : Except Exception α) = .ok a := rfl

theorem bind_eq_ok_iff {α β : Type} (x : Except Exception α) (f : α → Except Exception β) (b : β) :
    (x >>= f) = .ok b ↔ ∃ a, x = .ok a ∧ f a = .ok b := by
  cases x <;> simp

/-! ### The register operands, together -/

/-- A byte that the operand check refuses (R85). -/
abbrev namesNoRegister (v : Byte) : Bool := decide (8 ≤ v.toNat)

theorem regOperand_of_find? {a v : Byte} (h : [a].find? namesNoRegister = some v) :
    regOperand a = .error (.outOfBounds .register v.toNat) := by
  obtain ⟨rfl, ha⟩ : v = a ∧ 8 ≤ a.toNat := by
    have hmem := List.mem_of_find?_eq_some h
    have hbad := List.find?_some h
    simp_all
  exact regOperand_of_ge v ha

theorem regOperands_of_find? {a b v : Byte} (h : [a, b].find? namesNoRegister = some v) :
    regOperands a b = .error (.outOfBounds .register v.toNat) := by
  by_cases ha : 8 ≤ a.toNat
  · obtain rfl : a = v := by simpa [List.find?_cons, ha] using h
    exact regOperands_of_ge_left a b ha
  · have hb : regOperand b = .error (.outOfBounds .register v.toNat) :=
      regOperand_of_find? (by simpa [List.find?_cons, ha] using h)
    simp [regOperands, regOperand_of_lt a (by omega), hb]

/-- Where the operand check refuses no register operand, each names a register. -/
theorem regOperand_isOk_of_mem {vs : List Byte} {v : Byte} (h : vs.find? namesNoRegister = none) (hv : v ∈ vs) :
    ∃ r, regOperand v = .ok r := by
  have hlt : v.toNat < 8 := by simpa using List.find?_eq_none.1 h v hv
  exact ⟨_, regOperand_of_lt v hlt⟩

/-! ### The stack pointer as a value -/

/-- The value `SpDec()` gives a stack pointer, if it does not raise (R130). -/
def spBelow (p : Params) (v : Byte) : Option Byte :=
  if v = 0 then if p.spWrap then some 255 else none else some (v - 1)

/-- The value `SpInc()` gives a stack pointer, if it does not raise (R130). -/
def spAbove (p : Params) (v : Byte) : Option Byte :=
  if v = 255 then if p.spWrap then some 0 else none else some (v + 1)

theorem spDec_of_some {p : Params} {s : State} {v : Byte} (h : spBelow p (s.reg p.spIndex) = some v) :
    spDec p s = .ok (s.setReg p.spIndex v) := by
  rcases spDec_cases p s with ⟨h0, hw, hd⟩ | ⟨h0, hw, hd⟩ | ⟨h0, hd⟩ <;> simp_all [spBelow]

theorem spDec_of_none {p : Params} {s : State} (h : spBelow p (s.reg p.spIndex) = none) :
    spDec p s = .error (.outOfBounds .stack (-1)) := by
  rcases spDec_cases p s with ⟨h0, hw, hd⟩ | ⟨h0, hw, hd⟩ | ⟨h0, hd⟩ <;> simp_all [spBelow]

theorem spInc_of_some {p : Params} {s : State} {v : Byte} (h : spAbove p (s.reg p.spIndex) = some v) :
    spInc p s = .ok (s.setReg p.spIndex v) := by
  rcases spInc_cases p s with ⟨h0, hw, hi⟩ | ⟨h0, hw, hi⟩ | ⟨h0, hi⟩ <;> simp_all [spAbove]

theorem spInc_of_none {p : Params} {s : State} (h : spAbove p (s.reg p.spIndex) = none) :
    spInc p s = .error (.outOfBounds .stack 256) := by
  rcases spInc_cases p s with ⟨h0, hw, hi⟩ | ⟨h0, hw, hi⟩ | ⟨h0, hi⟩ <;> simp_all [spAbove]

/-! ### The two relations -/

/-- `Completes p s i t`: run in `s`, instruction `i` raises nothing and leaves `t`. -/
inductive Completes (p : Params) (s : State) : Instr → State → Prop
  | hlt : Completes p s .hlt (s.advance 1).halt
  | ldi {a b : Byte} {ra : Fin 8} (ha : regOperand a = .ok ra) : Completes p s (.ldi a b) ((s.setReg ra b).advance 3)
  | prn {a : Byte} {ra : Fin 8} (ha : regOperand a = .ok ra) : Completes p s (.prn a) ((s.emit (s.reg ra)).advance 2)
  | mul {a b : Byte} {ra rb : Fin 8} (hab : regOperands a b = .ok (ra, rb)) :
      Completes p s (.mul a b) ((s.setReg ra (BitVec.ofNat 8 ((s.reg ra).toNat * (s.reg rb).toNat))).advance 3)
  | add {a b : Byte} {ra rb : Fin 8} (hab : regOperands a b = .ok (ra, rb)) :
      Completes p s (.add a b) ((s.setReg ra (BitVec.ofNat 8 ((s.reg ra).toNat + (s.reg rb).toNat))).advance 3)
  | cmp {a b : Byte} {ra rb : Fin 8} (hab : regOperands a b = .ok (ra, rb)) :
      Completes p s (.cmp a b) ((s.setFlags (compareFlags (s.reg ra) (s.reg rb))).advance 3)
  | push {a v : Byte} {ra : Fin 8} (ha : regOperand a = .ok ra) (hv : spBelow p (s.reg p.spIndex) = some v) :
      Completes p s (.push a)
        (({ s.setReg p.spIndex v with mem := s.mem.put v.toNat ((s.setReg p.spIndex v).reg ra) } : State).advance 2)
  | pop {a v : Byte} {ra : Fin 8} (ha : regOperand a = .ok ra)
      (hv : spAbove p ((s.setReg ra (s.mem.get (s.reg p.spIndex).toNat)).reg p.spIndex) = some v) :
      Completes p s (.pop a)
        (((s.setReg ra (s.mem.get (s.reg p.spIndex).toNat)).setReg p.spIndex v).advance 2)
  | call {a v : Byte} {ra : Fin 8} (ha : regOperand a = .ok ra) (hret : s.pc.toNat + 2 ≤ 255)
      (hv : spBelow p (s.reg p.spIndex) = some v) :
      Completes p s (.call a)
        (({ s.setReg p.spIndex v with mem := s.mem.put v.toNat (BitVec.ofNat 8 (s.pc.toNat + 2)) } : State).jumpTo
          ((s.setReg p.spIndex v).reg ra))
  | ret {v : Byte} (hv : spAbove p (s.reg p.spIndex) = some v) :
      Completes p s .ret ((s.setReg p.spIndex v).jumpTo (s.mem.get (s.reg p.spIndex).toNat))
  | jmp {a : Byte} {ra : Fin 8} (ha : regOperand a = .ok ra) : Completes p s (.jmp a) (s.jumpTo (s.reg ra))
  | jeqTaken {a : Byte} {ra : Fin 8} (ha : regOperand a = .ok ra) (hE : s.fl.E = true) :
      Completes p s (.jeq a) (s.jumpTo (s.reg ra))
  | jeqNotTaken {a : Byte} {ra : Fin 8} (ha : regOperand a = .ok ra) (hE : s.fl.E = false) :
      Completes p s (.jeq a) (s.advance 2)
  | jneTaken {a : Byte} {ra : Fin 8} (ha : regOperand a = .ok ra) (hE : s.fl.E = false) :
      Completes p s (.jne a) (s.jumpTo (s.reg ra))
  | jneNotTaken {a : Byte} {ra : Fin 8} (ha : regOperand a = .ok ra) (hE : s.fl.E = true) :
      Completes p s (.jne a) (s.advance 2)

/-- `Raises p s i e`: run in `s`, instruction `i` raises `e`. -/
inductive Raises (p : Params) (s : State) : Instr → Exception → Prop
  | register {i : Instr} {v : Byte} (h : i.registerOperands.find? namesNoRegister = some v) :
      Raises p s i (.outOfBounds .register v.toNat)
  | push {a : Byte} {ra : Fin 8} (ha : regOperand a = .ok ra) (hv : spBelow p (s.reg p.spIndex) = none) :
      Raises p s (.push a) (.outOfBounds .stack (-1))
  | pop {a : Byte} {ra : Fin 8} (ha : regOperand a = .ok ra)
      (hv : spAbove p ((s.setReg ra (s.mem.get (s.reg p.spIndex).toNat)).reg p.spIndex) = none) :
      Raises p s (.pop a) (.outOfBounds .stack 256)
  | callReturn {a : Byte} {ra : Fin 8} (ha : regOperand a = .ok ra) (hret : 255 < s.pc.toNat + 2) :
      Raises p s (.call a) (.outOfBounds .memory ((s.pc.toNat + 2 : Nat) : Int))
  | callStack {a : Byte} {ra : Fin 8} (ha : regOperand a = .ok ra) (hret : s.pc.toNat + 2 ≤ 255)
      (hv : spBelow p (s.reg p.spIndex) = none) : Raises p s (.call a) (.outOfBounds .stack (-1))
  | ret (hv : spAbove p (s.reg p.spIndex) = none) : Raises p s .ret (.outOfBounds .stack 256)

/-! ### `execWith` is the two relations -/

theorem Completes.execWith_eq {p : Params} {s t : State} {i : Instr} (h : Completes p s i t) :
    execWith p i s = .next t := by
  cases h with
  | hlt => rfl
  | ldi ha => simp [execWith, execLdi, ha]
  | prn ha => simp [execWith, execPrn, ha]
  | mul hab => simp [execWith, execMul, aluInstr, hab, State.applyAlu]
  | add hab => simp [execWith, execAdd, aluInstr, hab, State.applyAlu]
  | cmp hab => simp [execWith, execCmp, aluInstr, hab, State.applyAlu]
  | push ha hv => simp [execWith, execPushWith, ha, spDec_of_some hv]
  | pop ha hv => simp [execWith, execPopWith, ha, spInc_of_some hv]
  | call ha hret hv => simp [execWith, execCallWith, ha, Nat.not_lt.2 hret, spDec_of_some hv]
  | ret hv => simp [execWith, execRetWith, spInc_of_some hv]
  | jmp ha => simp [execWith, execJmp, ha]
  | jeqTaken ha hE => simp [execWith, execJeq, ha, hE, State.branchIf]
  | jeqNotTaken ha hE => simp [execWith, execJeq, ha, hE, State.branchIf]
  | jneTaken ha hE => simp [execWith, execJne, ha, hE, State.branchIf]
  | jneNotTaken ha hE => simp [execWith, execJne, ha, hE, State.branchIf]

/-- The operand check comes before every other statement of an instruction (R85). -/
theorem execWith_of_bad_register (p : Params) (s : State) (i : Instr) (v : Byte)
    (h : i.registerOperands.find? namesNoRegister = some v) :
    execWith p i s = .next (enterFault (.outOfBounds .register v.toNat) s) := by
  cases i with
  | hlt => simp [Instr.registerOperands] at h
  | ldi a b => simp [execWith, execLdi, regOperand_of_find? h]
  | prn a => simp [execWith, execPrn, regOperand_of_find? h]
  | mul a b => simp [execWith, execMul, aluInstr, regOperands_of_find? h]
  | add a b => simp [execWith, execAdd, aluInstr, regOperands_of_find? h]
  | cmp a b => simp [execWith, execCmp, aluInstr, regOperands_of_find? h]
  | push a => simp [execWith, execPushWith, regOperand_of_find? h]
  | pop a => simp [execWith, execPopWith, regOperand_of_find? h]
  | call a => simp [execWith, execCallWith, regOperand_of_find? h]
  | ret => simp [Instr.registerOperands] at h
  | jmp a => simp [execWith, execJmp, regOperand_of_find? h]
  | jeq a => simp [execWith, execJeq, regOperand_of_find? h]
  | jne a => simp [execWith, execJne, regOperand_of_find? h]

theorem Raises.execWith_eq {p : Params} {s : State} {i : Instr} {e : Exception} (h : Raises p s i e) :
    execWith p i s = .next (enterFault e s) := by
  cases h with
  | register h => exact execWith_of_bad_register p s i _ h
  | push ha hv => simp [execWith, execPushWith, ha, spDec_of_none hv]
  | pop ha hv => simp [execWith, execPopWith, ha, spInc_of_none hv]
  | callReturn ha hret => simp [execWith, execCallWith, ha, hret]
  | callStack ha hret hv => simp [execWith, execCallWith, ha, Nat.not_lt.2 hret, spDec_of_none hv]
  | ret hv => simp [execWith, execRetWith, spInc_of_none hv]

/-- Every instruction completes or raises, in every state. -/
theorem completes_or_raises (p : Params) (s : State) (i : Instr) :
    (∃ t, Completes p s i t) ∨ ∃ e, Raises p s i e := by
  cases hreg : i.registerOperands.find? namesNoRegister with
  | some v => exact .inr ⟨_, .register hreg⟩
  | none =>
    have operand (v : Byte) (hv : v ∈ i.registerOperands) := regOperand_isOk_of_mem hreg hv
    have operands (a b : Byte) (ha : a ∈ i.registerOperands) (hb : b ∈ i.registerOperands) :
        ∃ r, regOperands a b = .ok r := by
      obtain ⟨ra, ha⟩ := operand a ha
      obtain ⟨rb, hb⟩ := operand b hb
      exact ⟨(ra, rb), by simp [regOperands, ha, hb]⟩
    cases i with
    | hlt => exact .inl ⟨_, .hlt⟩
    | ldi a b =>
      obtain ⟨ra, ha⟩ := operand a List.mem_cons_self
      exact .inl ⟨_, .ldi ha⟩
    | prn a =>
      obtain ⟨ra, ha⟩ := operand a List.mem_cons_self
      exact .inl ⟨_, .prn ha⟩
    | mul a b =>
      obtain ⟨r, hab⟩ := operands a b List.mem_cons_self (List.mem_cons_of_mem a List.mem_cons_self)
      exact .inl ⟨_, .mul hab⟩
    | add a b =>
      obtain ⟨r, hab⟩ := operands a b List.mem_cons_self (List.mem_cons_of_mem a List.mem_cons_self)
      exact .inl ⟨_, .add hab⟩
    | cmp a b =>
      obtain ⟨r, hab⟩ := operands a b List.mem_cons_self (List.mem_cons_of_mem a List.mem_cons_self)
      exact .inl ⟨_, .cmp hab⟩
    | push a =>
      obtain ⟨ra, ha⟩ := operand a List.mem_cons_self
      cases hv : spBelow p (s.reg p.spIndex) with
      | some v => exact .inl ⟨_, .push ha hv⟩
      | none => exact .inr ⟨_, .push ha hv⟩
    | pop a =>
      obtain ⟨ra, ha⟩ := operand a List.mem_cons_self
      cases hv : spAbove p ((s.setReg ra (s.mem.get (s.reg p.spIndex).toNat)).reg p.spIndex) with
      | some v => exact .inl ⟨_, .pop ha hv⟩
      | none => exact .inr ⟨_, .pop ha hv⟩
    | call a =>
      obtain ⟨ra, ha⟩ := operand a List.mem_cons_self
      by_cases hret : s.pc.toNat + 2 ≤ 255
      · cases hv : spBelow p (s.reg p.spIndex) with
        | some v => exact .inl ⟨_, .call ha hret hv⟩
        | none => exact .inr ⟨_, .callStack ha hret hv⟩
      · exact .inr ⟨_, .callReturn ha (Nat.not_le.1 hret)⟩
    | ret =>
      cases hv : spAbove p (s.reg p.spIndex) with
      | some v => exact .inl ⟨_, .ret hv⟩
      | none => exact .inr ⟨_, .ret hv⟩
    | jmp a =>
      obtain ⟨ra, ha⟩ := operand a List.mem_cons_self
      exact .inl ⟨_, .jmp ha⟩
    | jeq a =>
      obtain ⟨ra, ha⟩ := operand a List.mem_cons_self
      cases hE : s.fl.E with
      | true => exact .inl ⟨_, .jeqTaken ha hE⟩
      | false => exact .inl ⟨_, .jeqNotTaken ha hE⟩
    | jne a =>
      obtain ⟨ra, ha⟩ := operand a List.mem_cons_self
      cases hE : s.fl.E with
      | true => exact .inl ⟨_, .jneNotTaken ha hE⟩
      | false => exact .inl ⟨_, .jneTaken ha hE⟩

/-- What an instruction can do: complete, or make the fault entry of what it raises. -/
theorem execWith_eq_next_iff (p : Params) (i : Instr) (s t : State) :
    execWith p i s = .next t ↔ Completes p s i t ∨ ∃ e, Raises p s i e ∧ t = enterFault e s := by
  constructor
  · intro h
    rcases completes_or_raises p s i with ⟨u, hu⟩ | ⟨e, he⟩
    · obtain rfl : u = t := by simpa [hu.execWith_eq] using h
      exact .inl hu
    · obtain rfl : enterFault e s = t := by simpa [he.execWith_eq] using h
      exact .inr ⟨e, he, rfl⟩
  · rintro (hu | ⟨e, he, rfl⟩)
    · exact hu.execWith_eq
    · exact he.execWith_eq

theorem exec_eq_next_iff (i : Instr) (s t : State) :
    exec i s = .next t ↔
      Completes Config.hardware s i t ∨ ∃ e, Raises Config.hardware s i e ∧ t = enterFault e s := by
  rw [← execWith_hardware, execWith_eq_next_iff]

end Sys2Proof.Machine

/-! ## The frames of the control state, and what fetch and the step can answer -/

namespace Sys2Proof.Machine

/-! ### What a completing instruction leaves unchanged (10_state.md) -/

section Frames
variable {p : Params} {s t : State} {i : Instr}

theorem Completes.faultStatus_eq (h : Completes p s i t) :
    t.faultCode = s.faultCode ∧ t.faultPc = s.faultPc ∧ t.faultInfo = s.faultInfo := by
  cases h <;> exact ⟨rfl, rfl, rfl⟩

theorem Completes.fl_eq_or_cmp (h : Completes p s i t) : t.fl = s.fl ∨ ∃ a b, i = .cmp a b := by
  cases h with
  | cmp => exact .inr ⟨_, _, rfl⟩
  | _ => exact .inl rfl

theorem Completes.halted_eq_or_hlt (h : Completes p s i t) :
    t.halted = s.halted ∨ (i = .hlt ∧ t.halted = true) := by
  cases h with
  | hlt => exact .inr ⟨rfl, rfl⟩
  | _ => exact .inl rfl

/-- PRN appends the value of a register that its operand names; every other instruction keeps the output. -/
theorem Completes.output_eq_or_prn (h : Completes p s i t) :
    t.output = s.output ∨ ∃ a ra, i = .prn a ∧ regOperand a = .ok ra ∧ t.output = s.output ++ [s.reg ra] := by
  cases h with
  | prn ha => exact .inr ⟨_, _, rfl, ha, rfl⟩
  | _ => exact .inl rfl

end Frames

/-- An operand that passes the check is the index of its register. -/
theorem val_eq_of_regOperand {v : Byte} {r : Fin 8} (h : regOperand v = .ok r) : r.val = v.toNat := by
  rcases regOperand_cases v with ⟨hlt, hok⟩ | ⟨-, herr⟩
  · rw [hok] at h
    cases h
    rfl
  · simp [herr] at h

/-! ### The program counter (R87) -/

/-- A sum that the 9-bit program counter holds only modulo 512 is no larger for it. -/
theorem State.advance_pc_le (s : State) (n : Nat) : (s.advance n).pc.toNat ≤ s.pc.toNat + n := by
  simp only [State.advance_pc, BitVec.toNat_ofNat]
  exact Nat.mod_le _ _

theorem State.jumpTo_pc_le (s : State) (v : Byte) : (s.jumpTo v).pc.toNat ≤ 255 := by
  simp only [State.jumpTo_pc, BitVec.toNat_setWidth]
  omega

/-- An instruction goes to an 8-bit target or no further than one past its own last byte. -/
theorem Completes.pc_le {p : Params} {s t : State} {i : Instr} (h : Completes p s i t) :
    t.pc.toNat ≤ max 255 (s.pc.toNat + i.mnemonic.length) := by
  cases h with
  | hlt => exact Nat.le_trans (s.advance_pc_le 1) (Nat.le_max_right ..)
  | ldi | prn | mul | add | cmp | push | pop | jeqNotTaken | jneNotTaken =>
    exact Nat.le_trans (State.advance_pc_le _ _) (Nat.le_max_right ..)
  | call | ret | jmp | jeqTaken | jneTaken => exact Nat.le_trans (State.jumpTo_pc_le _ _) (Nat.le_max_left ..)

/-! ### Fetch and decode -/

theorem memRead_eq_ok {addr : Int} {s : State} {v : Byte} (h : memRead addr s = .ok v) :
    0 ≤ addr ∧ addr < 256 ∧ v = s.mem.get addr.toNat := by
  unfold memRead at h
  split at h
  · rename_i hin
    obtain ⟨h0, h256⟩ := (inMemory_iff addr).1 hin
    cases h
    exact ⟨h0, h256, rfl⟩
  · cases h

theorem lazyCandidate_lt {used : Bool} {addr : Int} {s : State} {v : Byte} (h : lazyCandidate used addr s = .ok v)
    (hu : used = true) : addr < 256 := by
  subst hu
  exact (memRead_eq_ok (by simpa [lazyCandidate] using h)).2.1

theorem decodeStage_eq_ok {p : Params} {op : Byte} {m : Mnemonic} (h : decodeStage p op = .ok m) :
    decodeOpcode p op = some m := by
  unfold decodeStage at h
  split at h <;> cases h
  assumption

theorem nops_le_two (m : Mnemonic) : m.nops ≤ 2 := by cases m <;> decide

/-- Fetch and decode answer an instruction whose opcode is the byte at the program counter and whose own bytes all lie in
memory, for either setting of STRICT_PREFETCH (R81, R82). -/
theorem fetchDecode_eq_ok {p : Params} {s : State} {i : Instr} (h : fetchDecode p s = .ok i) :
    decodeOpcode p (s.mem.get s.pc.toNat) = some i.mnemonic ∧ s.pc.toNat + i.mnemonic.length ≤ 256 := by
  unfold fetchDecode at h
  cases hp : p.strictPrefetch with
  | true =>
    simp only [hp, if_true, fetch, bind_eq_ok_iff, pure_eq_ok, Except.ok.injEq] at h
    obtain ⟨_, ⟨op, hop, a, -, b, hb, rfl⟩, m, hm, rfl⟩ := h
    obtain ⟨-, -, rfl⟩ := memRead_eq_ok hop
    obtain ⟨-, hb, -⟩ := memRead_eq_ok hb
    have hn := nops_le_two m
    simp only [assemble_mnemonic, Mnemonic.length]
    exact ⟨decodeStage_eq_ok hm, by omega⟩
  | false =>
    simp only [hp, Bool.false_eq_true, if_false, bind_eq_ok_iff, pure_eq_ok, Except.ok.injEq] at h
    obtain ⟨op, hop, m, hm, a, ha, b, hb, rfl⟩ := h
    obtain ⟨-, hop, rfl⟩ := memRead_eq_ok hop
    have ha (h1 : 1 ≤ m.nops) := lazyCandidate_lt ha (decide_eq_true h1)
    have hb (h2 : 2 ≤ m.nops) := lazyCandidate_lt hb (decide_eq_true h2)
    have hn := nops_le_two m
    simp only [assemble_mnemonic, Mnemonic.length]
    exact ⟨decodeStage_eq_ok hm, by omega⟩

/-! ### The step -/

/-- What a step can do (R80, R93): from a Running core only, the fault entry of fetch or decode, or the instruction. -/
theorem stepWith_eq_next_iff (p : Params) (s t : State) :
    stepWith p s = .next t ↔ s.Running ∧
      ((∃ e, fetchDecode p s = .error e ∧ t = enterFault e s) ∨
        ∃ i, fetchDecode p s = .ok i ∧ execWith p i s = .next t) := by
  by_cases hrun : s.Running
  · rw [stepWith, cycle_running p _ s hrun.1 hrun.2, and_iff_right hrun]
    cases fetchDecode p s with
    | error e => simp [eq_comm]
    | ok i => simp
  · have hstop : ∀ u, stepWith p s ≠ .next u := by
      intro u h
      unfold stepWith cycle at h
      split at h
      · cases h
      · split at h
        · cases h
        · exact hrun ⟨Bool.eq_false_iff.2 ‹_›, Decidable.not_not.1 ‹_›⟩
    simp [hrun, hstop]

theorem step_eq_next_iff (s t : State) :
    step s = .next t ↔ s.Running ∧
      ((∃ e, fetchDecode Config.hardware s = .error e ∧ t = enterFault e s) ∨
        ∃ i, fetchDecode Config.hardware s = .ok i ∧ exec i s = .next t) := by
  simp only [← stepWith_hardware, stepWith_eq_next_iff, execWith_hardware]

/-! ### What an instruction does not read: FL but for the E of JEQ and JNE (R29), `fault_pc` and `fault_info` (R34) -/

section Unread
variable {p : Params} {s t : State} {i : Instr} (f : Flags) (x : PcWord) (y : FaultInfo)

/-- With other values in the fields it does not read, an instruction completes with the same state but for those fields:
the fault record as given, and FL as before where FL was as before. -/
theorem Completes.overwrite_unread (h : Completes p s i t)
    (hE : i.mnemonic = .jeq ∨ i.mnemonic = .jne → f.E = s.fl.E) :
    ∃ g, Completes p { s with fl := f, faultPc := x, faultInfo := y } i
        { t with fl := g, faultPc := x, faultInfo := y } ∧
      (f = s.fl → g = t.fl) := by
  cases h with
  | hlt => exact ⟨f, .hlt, id⟩
  | ldi ha => exact ⟨f, .ldi ha, id⟩
  | prn ha => exact ⟨f, .prn ha, id⟩
  | mul hab => exact ⟨f, .mul hab, id⟩
  | add hab => exact ⟨f, .add hab, id⟩
  | cmp hab => exact ⟨_, .cmp hab, fun _ => rfl⟩
  | push ha hv => exact ⟨f, .push ha hv, id⟩
  | pop ha hv => exact ⟨f, .pop ha hv, id⟩
  | call ha hret hv => exact ⟨f, .call ha hret hv, id⟩
  | ret hv => exact ⟨f, .ret hv, id⟩
  | jmp ha => exact ⟨f, .jmp ha, id⟩
  | jeqTaken ha h => exact ⟨f, .jeqTaken ha ((hE (.inl rfl)).trans h), id⟩
  | jeqNotTaken ha h => exact ⟨f, .jeqNotTaken ha ((hE (.inl rfl)).trans h), id⟩
  | jneTaken ha h => exact ⟨f, .jneTaken ha ((hE (.inr rfl)).trans h), id⟩
  | jneNotTaken ha h => exact ⟨f, .jneNotTaken ha ((hE (.inr rfl)).trans h), id⟩

/-- What an instruction raises depends on none of those fields. -/
theorem Raises.overwrite_unread {e : Exception} (h : Raises p s i e) :
    Raises p { s with fl := f, faultPc := x, faultInfo := y } i e := by
  cases h with
  | register h => exact .register h
  | push ha hv => exact .push ha hv
  | pop ha hv => exact .pop ha hv
  | callReturn ha hret => exact .callReturn ha hret
  | callStack ha hret hv => exact .callStack ha hret hv
  | ret hv => exact .ret hv

theorem fetchDecode_overwrite_faultRecord :
    fetchDecode p { s with faultPc := x, faultInfo := y } = fetchDecode p s := rfl

end Unread

end Sys2Proof.Machine

/-! ## The obligations of 10_state.md -/

namespace Sys2Proof.Machine

/-- Settles O27: of the ways an instruction can complete only CMP's writes FL, and none but those of JEQ and JNE has a premise
about it, which is about E. -/
theorem flagsWrittenByCmpReadByJumps : Obligations.FlagsWrittenByCmpReadByJumps := by
  constructor
  · intro i s t h hne
    rcases (exec_eq_next_iff i s t).1 h with hc | ⟨e, -, rfl⟩
    · exact hc.fl_eq_or_cmp.resolve_left hne
    · exact absurd rfl hne
  · intro i s t f h hE
    rcases (exec_eq_next_iff i s t).1 h with hc | ⟨e, hr, rfl⟩
    · have hread : i.mnemonic = .jeq ∨ i.mnemonic = .jne → f.E = s.fl.E := by
        rcases hE with hno | hE
        · intro hj
          cases i <;> simp [Instr.mnemonic] at hj hno
        · exact fun _ => hE
      obtain ⟨g, hg, -⟩ := hc.overwrite_unread f s.faultPc s.faultInfo hread
      obtain ⟨-, hpc, hinfo⟩ := hc.faultStatus_eq
      exact ⟨_, (exec_eq_next_iff _ _ _).2 (.inl hg), by rw [← hpc, ← hinfo]⟩
    · have hr' := hr.overwrite_unread f s.faultPc s.faultInfo
      exact ⟨_, (exec_eq_next_iff _ _ _).2 (.inr ⟨e, hr', rfl⟩), rfl⟩

/-- An instruction changes the halted flag only as HLT, and then sets it. -/
theorem exec_halted {i : Instr} {s t : State} (h : exec i s = .next t) (hne : t.halted ≠ s.halted) :
    i = .hlt ∧ t.halted = true := by
  rcases (exec_eq_next_iff i s t).1 h with hc | ⟨e, -, rfl⟩
  · exact hc.halted_eq_or_hlt.resolve_left hne
  · exact absurd rfl hne

/-- A step that ends halted ran an HLT from a Running core. -/
theorem step_halted {s t : State} (h : step s = .next t) (ht : t.halted = true) :
    s.halted = false ∧ s.mem.get s.pc.toNat = 0x01 := by
  obtain ⟨⟨hs, -⟩, ⟨e, -, rfl⟩ | ⟨i, hi, hexec⟩⟩ := (step_eq_next_iff s t).1 h
  · simp [hs] at ht
  · obtain ⟨rfl, -⟩ := exec_halted hexec (by simp [hs, ht])
    exact ⟨hs, (opcodeMap_of_decodeOpcode _ _ _ (fetchDecode_eq_ok hi).1).symm⟩

/-- Settles O28. -/
theorem onlyHltSetsHalted : Obligations.OnlyHltSetsHalted := by
  refine ⟨rfl, fun i s t => exec_halted, fun s t => step_halted, fun s t hs h => ?_⟩
  obtain ⟨⟨hrun, -⟩, -⟩ := (step_eq_next_iff s t).1 h
  simp [hs] at hrun

/-- Settles O29: of the ways an instruction can complete only PRN's writes the output, and a fault entry keeps it. -/
theorem onlyPrnAppendsToOutput : Obligations.OnlyPrnAppendsToOutput := by
  refine ⟨rfl, fun i s t h hne => ?_⟩
  rcases (exec_eq_next_iff i s t).1 h with hc | ⟨e, -, rfl⟩
  · obtain ⟨a, ra, hi, ha, hout⟩ := hc.output_eq_or_prn.resolve_left hne
    have hval := val_eq_of_regOperand ha
    exact ⟨a, hval ▸ ra.isLt, hi, by simpa [State.reg, hval] using hout⟩
  · exact absurd rfl hne

/-- With any other fault record an instruction of a Running core does the same: it completes with the same state but for the
record, and a fault entry overwrites the record. -/
theorem exec_overwrite_faultRecord {i : Instr} {s t : State} (x : PcWord) (y : FaultInfo) (hs : s.faultCode = .none)
    (h : exec i s = .next t) :
    exec i { s with faultPc := x, faultInfo := y } =
      .next (if t.faultCode = .none then { t with faultPc := x, faultInfo := y } else t) := by
  rcases (exec_eq_next_iff i s t).1 h with hc | ⟨e, hr, rfl⟩
  · obtain ⟨g, hg, hfl⟩ := hc.overwrite_unread s.fl x y fun _ => rfl
    obtain rfl := hfl rfl
    obtain ⟨hcode, -, -⟩ := hc.faultStatus_eq
    rw [if_pos (hcode.trans hs)]
    exact (exec_eq_next_iff _ _ _).2 (.inl hg)
  · rw [if_neg (by simpa using e.code_ne_none)]
    exact (exec_eq_next_iff _ _ _).2 (.inr ⟨e, hr.overwrite_unread s.fl x y, rfl⟩)

/-- Settles O45. -/
theorem faultStatusIsUnobservableWhileRunning : Obligations.FaultStatusIsUnobservableWhileRunning := by
  intro s t x y h
  obtain ⟨⟨hh, hf⟩, hcase⟩ := (step_eq_next_iff s t).1 h
  refine ⟨(step_eq_next_iff _ _).2 ⟨⟨hh, hf⟩, ?_⟩, by simp [State.ports, hf]⟩
  rw [fetchDecode_overwrite_faultRecord]
  rcases hcase with ⟨e, he, rfl⟩ | ⟨i, hi, hexec⟩
  · exact .inl ⟨e, he, if_neg (by simpa using e.code_ne_none)⟩
  · exact .inr ⟨i, hi, exec_overwrite_faultRecord x y hf hexec⟩

/-- Settles O46: a fault entry keeps the pc, and an instruction whose own bytes lie in memory ends no further than one past
them (R87). -/
theorem pcStaysInRangeForEverySetting : Obligations.PcStaysInRangeForEverySetting := by
  intro p s t hs h
  obtain ⟨-, ⟨e, -, rfl⟩ | ⟨i, hi, hexec⟩⟩ := (stepWith_eq_next_iff p s t).1 h
  · exact hs
  · rcases (execWith_eq_next_iff p i s t).1 hexec with hc | ⟨e, -, rfl⟩
    · have hown := (fetchDecode_eq_ok hi).2
      have hpc := hc.pc_le
      omega
    · exact hs

end Sys2Proof.Machine

/-! ## The obligations of 20_memory.md -/

namespace Sys2Proof.Machine

/-! ### The memory interface at any integer address (R42) -/

theorem memRead_of_mem_range {addr : Int} (h0 : 0 ≤ addr) (h256 : addr < 256) (s : State) :
    memRead addr s = .ok (s.mem.get addr.toNat) :=
  if_pos ((inMemory_iff addr).2 ⟨h0, h256⟩)

theorem memWrite_of_mem_range {addr : Int} (h0 : 0 ≤ addr) (h256 : addr < 256) (v : Byte) (s : State) :
    memWrite addr v s = .ok { s with mem := s.mem.put addr.toNat v } :=
  if_pos ((inMemory_iff addr).2 ⟨h0, h256⟩)

theorem not_inMemory_of_outside {addr : Int} (h : addr < 0 ∨ 256 ≤ addr) : ¬ inMemory addr = true := by
  rw [inMemory_iff]
  omega

theorem memRead_of_outside {addr : Int} (h : addr < 0 ∨ 256 ≤ addr) (s : State) :
    memRead addr s = .error (.outOfBounds .memory addr) :=
  if_neg (not_inMemory_of_outside h)

theorem memWrite_of_outside {addr : Int} (h : addr < 0 ∨ 256 ≤ addr) (v : Byte) (s : State) :
    memWrite addr v s = .error (.outOfBounds .memory addr) :=
  if_neg (not_inMemory_of_outside h)

/-- Settles O34. -/
theorem memoryReadsBackWhatWasWritten : Obligations.MemoryReadsBackWhatWasWritten := by
  refine fun s addr v hwf => ⟨fun h0 h256 => ?_, fun hout => ⟨memRead_of_outside hout s, memWrite_of_outside hout v s⟩⟩
  have hwrite := memWrite_of_mem_range h0 h256 v s
  refine ⟨memRead_of_mem_range h0 h256 s, _, hwrite, rfl, memWrite_wf addr v s _ hwrite hwf, ?_, fun c hc0 hc256 hne => ?_⟩
  · rw [memRead_of_mem_range h0 h256, Memory.get_put_same _ _ _ hwf]
  · have hcell : c.toNat ≠ addr.toNat := by omega
    rw [memRead_of_mem_range hc0 hc256, memRead_of_mem_range hc0 hc256, Memory.get_put_other _ _ _ _ hcell]

/-! ### What a completing instruction keeps of the invariant -/

section Invariant
variable {p : Params} {s t : State} {i : Instr} {e : Exception}

/-- PUSH and CALL store at an 8-bit address, and nothing else stores. -/
theorem Completes.mem_wf (h : Completes p s i t) (hs : s.mem.wf = true) : t.mem.wf = true := by
  cases h with
  | push | call => exact Memory.put_wf _ _ _ hs (BitVec.isLt _)
  | _ => exact hs

theorem compareFlags_ok (a b : Byte) : Flags.ok (compareFlags a b) := by
  rcases compareFlags_cases a b with ⟨-, h⟩ | ⟨-, h⟩ | ⟨-, h⟩
  · exact .inr (.inl h)
  · exact .inr (.inr (.inl h))
  · exact .inr (.inr (.inr h))

/-- CMP sets exactly one flag, and nothing else writes FL. -/
theorem Completes.flags_ok (h : Completes p s i t) (hs : Flags.ok s.fl) : Flags.ok t.fl := by
  cases h with
  | cmp => exact compareFlags_ok _ _
  | _ => exact hs

/-- An instruction that ends halted was an HLT, and its pc is one past an HLT byte (R92, R100). -/
theorem Completes.haltedPastHlt (h : Completes Config.hardware s i t) (hs : s.halted = false) (hpc : s.pc.toNat ≤ 253)
    (hop : decodeOpcode Config.hardware (s.mem.get s.pc.toNat) = some i.mnemonic) (ht : t.halted = true) :
    1 ≤ t.pc.toNat ∧ t.pc.toNat ≤ 254 ∧ t.mem.get (t.pc.toNat - 1) = 0x01 := by
  obtain ⟨rfl, -⟩ : i = .hlt ∧ t.halted = true := h.halted_eq_or_hlt.resolve_left (by simp [hs, ht])
  cases h
  have hnext : (s.advance 1).halt.pc.toNat = s.pc.toNat + 1 := by
    simp only [State.halt_pc, State.advance_pc, BitVec.toNat_ofNat]
    omega
  have hbyte : s.mem.get s.pc.toNat = 0x01 := (opcodeMap_of_decodeOpcode _ _ _ hop).symm
  exact ⟨by omega, by omega, by rw [hnext]; exact hbyte⟩

/-- An instruction that a step runs and that raises nothing keeps the invariant. -/
theorem Completes.inv (h : Completes Config.hardware s i t) (hs : s.Inv) (hrun : s.Running) (hpc : s.pc.toNat ≤ 253)
    (hop : decodeOpcode Config.hardware (s.mem.get s.pc.toNat) = some i.mnemonic) : t.Inv := by
  have hcode : t.faultCode = .none := h.faultStatus_eq.1.trans hrun.2
  exact {
    memWf := h.mem_wf hs.memWf
    pcRange := by
      have hle := h.pc_le
      have hn := nops_le_two i.mnemonic
      simp only [Mnemonic.length] at hle
      omega
    flags := h.flags_ok hs.flags
    oneEnd := fun _ => hcode
    haltedPastHlt := h.haltedPastHlt hrun.1 hpc hop
    faultRecord := by simp [State.faultRecordOk, hcode] }

/-! ### What a fault entry keeps of the invariant -/

/-- A fault entry changes the fault record alone, so the record is all that is to be shown of it. -/
theorem enterFault_inv (hs : s.Inv) (hrun : s.Running) (he : (enterFault e s).faultRecordOk) : (enterFault e s).Inv where
  memWf := hs.memWf
  pcRange := hs.pcRange
  flags := hs.flags
  oneEnd := by simp [hrun.1]
  haltedPastHlt := by simp [hrun.1]
  faultRecord := he

/-- An instruction at 253 or below raises only what the fault record of this hardware can hold: the return address of CALL,
the one exception of memory, is then in range. -/
theorem Raises.faultRecordOk (h : Raises p s i e) (hpc : s.pc.toNat ≤ 253) : (enterFault e s).faultRecordOk := by
  cases h with
  | @register _ v hv =>
    have hbad : 8 ≤ v.toNat := by simpa using List.find?_some hv
    have hbyte := v.isLt
    exact ⟨rfl, by omega, by omega⟩
  | push | callStack => exact ⟨rfl, .inl rfl⟩
  | pop | ret => exact ⟨rfl, .inr rfl⟩
  | callReturn _ hret => omega

/-! ### Fetch and decode on this hardware -/

/-- From 254 to 256 the strict prefetch raises, always for address 256 (R81). -/
theorem fetchDecode_hardware_of_ge (h254 : 254 ≤ s.pc.toNat) (h256 : s.pc.toNat ≤ 256) :
    fetchDecode Config.hardware s = .error (.outOfBounds .memory 256) := by
  have hfetch := fetch_of_first_ge s (256 - s.pc.toNat) (by omega) (by omega) (fun j hj => by omega)
  have haddr : (s.pc.toNat : Int) + (256 - s.pc.toNat : Nat) = 256 := by omega
  simp [fetchDecode, hfetch, haddr]

/-- What fetch and decode answer with the pc in range, in the order of R166. -/
theorem fetchDecode_hardware_cases (s : State) (hs : s.pc.toNat ≤ 256) :
    (254 ≤ s.pc.toNat ∧ fetchDecode Config.hardware s = .error (.outOfBounds .memory 256)) ∨
    (decodeOpcode Config.hardware (s.mem.get s.pc.toNat) = none ∧
      fetchDecode Config.hardware s = .error (.invalidInstruction (s.mem.get s.pc.toNat))) ∨
    (s.pc.toNat ≤ 253 ∧ ∃ i, fetchDecode Config.hardware s = .ok i) := by
  by_cases hpc : s.pc.toNat ≤ 253
  · have hfd := fetchDecode_strict Config.hardware rfl s hpc
    cases hop : decodeOpcode Config.hardware (s.mem.get s.pc.toNat) with
    | none => exact .inr (.inl ⟨rfl, by rw [hfd, hop]⟩)
    | some m => exact .inr (.inr ⟨hpc, _, by rw [hfd, hop]⟩)
  · have h254 : 254 ≤ s.pc.toNat := by omega
    exact .inl ⟨h254, fetchDecode_hardware_of_ge h254 hs⟩

theorem fetchDecode_hardware_eq_ok_le (hs : s.pc.toNat ≤ 256) (h : fetchDecode Config.hardware s = .ok i) :
    s.pc.toNat ≤ 253 := by
  rcases fetchDecode_hardware_cases s hs with ⟨-, hfd⟩ | ⟨-, hfd⟩ | ⟨hpc, -⟩
  · simp [hfd] at h
  · simp [hfd] at h
  · exact hpc

theorem fetchDecode_hardware_error_faultRecordOk (hs : s.pc.toNat ≤ 256) (h : fetchDecode Config.hardware s = .error e) :
    (enterFault e s).faultRecordOk := by
  rcases fetchDecode_hardware_cases s hs with ⟨h254, hfd⟩ | ⟨hop, hfd⟩ | ⟨-, i, hfd⟩
  · obtain rfl : _ = e := by simpa [hfd] using h
    exact ⟨rfl, rfl, h254⟩
  · obtain rfl : _ = e := by simpa [hfd] using h
    exact ⟨rfl, rfl, hop⟩
  · simp [hfd] at h

end Invariant

/-- Settles O48: a step is the fault entry of fetch and decode, or an instruction at 253 or below, which completes or raises. -/
theorem stepKeepsTheInvariant : Obligations.StepKeepsTheInvariant := by
  intro s t hs h
  obtain ⟨hrun, ⟨e, he, rfl⟩ | ⟨i, hi, hexec⟩⟩ := (step_eq_next_iff s t).1 h
  · exact enterFault_inv hs hrun (fetchDecode_hardware_error_faultRecordOk hs.pcRange he)
  · have hpc := fetchDecode_hardware_eq_ok_le hs.pcRange hi
    rcases (exec_eq_next_iff i s t).1 hexec with hc | ⟨e, hr, rfl⟩
    · exact hc.inv hs hrun hpc (fetchDecode_eq_ok hi).1
    · exact enterFault_inv hs hrun (hr.faultRecordOk hpc)

end Sys2Proof.Machine

/-! ## The decoder and the encoder (R60 to R63), and what fetch gives the decoder (R66) -/

namespace Sys2Proof

/-- The opcode byte, then as many operand bytes as its mnemonic has (R60, R61), decode to the assembled instruction. -/
theorem decode_of_decodeOpcode {p : Params} {op : Byte} {m : Mnemonic} {ops : List Byte}
    (hop : decodeOpcode p op = some m) (hlen : ops.length = m.nops) (rest : List Byte) :
    decode p (op :: (ops ++ rest)) = .ok (assemble m (ops.getD 0 0) (ops.getD 1 0), rest) := by
  cases hf : m.format with
  | f0 =>
    rw [Mnemonic.nops, hf] at hlen
    obtain rfl := List.length_eq_zero_iff.1 hlen
    simp [decode, hop, hf]
  | f1 =>
    rw [Mnemonic.nops, hf] at hlen
    obtain ⟨a, rfl⟩ := List.length_eq_one_iff.1 hlen
    simp [decode, hop, hf]
  | f2 =>
    rw [Mnemonic.nops, hf] at hlen
    match ops, hlen with
    | [a, b], _ => simp [decode, hop, hf]

/-- Bytes that decode are an opcode byte, as many operand bytes as its mnemonic has, and the rest. -/
theorem decode_eq_ok {p : Params} {bs rest : List Byte} {i : Instr} (h : decode p bs = .ok (i, rest)) :
    ∃ op m ops, bs = op :: (ops ++ rest) ∧ decodeOpcode p op = some m ∧ ops.length = m.nops ∧
      i = assemble m (ops.getD 0 0) (ops.getD 1 0) := by
  unfold decode at h
  split at h
  case h_1 => cases h
  case h_2 op tail =>
    split at h
    case h_1 => cases h
    case h_2 m hop =>
      split at h <;> cases h
      case h_1 hf => exact ⟨op, m, [], rfl, hop, congrArg Format.nops hf.symm, rfl⟩
      case h_2 a hf => exact ⟨op, m, [a], rfl, hop, congrArg Format.nops hf.symm, rfl⟩
      case h_3 a b hf => exact ⟨op, m, [a, b], rfl, hop, congrArg Format.nops hf.symm, rfl⟩

/-- An instruction is its mnemonic assembled with its operand bytes. -/
theorem assemble_operandBytes (i : Instr) :
    assemble i.mnemonic (i.operandBytes.getD 0 0) (i.operandBytes.getD 1 0) = i := by
  cases i <;> rfl

/-- An assembled instruction carries the candidate bytes within its length, in order (R60). -/
theorem operandBytes_assemble (m : Mnemonic) (a b : Byte) : (assemble m a b).operandBytes = [a, b].take m.nops := by
  cases m <;> rfl

/-- A list of `m.nops` operand bytes is what the instruction assembled from it carries. -/
theorem operandBytes_assemble_getD {m : Mnemonic} {ops : List Byte} (hlen : ops.length = m.nops) :
    (assemble m (ops.getD 0 0) (ops.getD 1 0)).operandBytes = ops := by
  rw [operandBytes_assemble, ← hlen]
  match ops, hlen ▸ Machine.nops_le_two m with
  | [], _ | [_], _ | [_, _], _ => rfl

/-- A candidate byte past the operand count is ignored (R66). -/
theorem assemble_congr {m : Mnemonic} {a a' b b' : Byte} (ha : 1 ≤ m.nops → a = a') (hb : 2 ≤ m.nops → b = b') :
    assemble m a b = assemble m a' b' := by
  cases m with
  | hlt | ret => rfl
  | prn | push | pop | call | jmp | jeq | jne => rw [ha (by decide)]; rfl
  | ldi | mul | add | cmp => rw [ha (by decide), hb (by decide)]

end Sys2Proof

namespace Sys2Proof.Machine

/-- With three fetches in range and a listed opcode byte, a step of a running core runs the assembled instruction (R80). -/
theorem step_of_decodeOpcode {s : State} {m : Mnemonic} (hrun : s.Running) (hpc : s.pc.toNat ≤ 253)
    (hop : decodeOpcode Config.hardware (s.mem.get s.pc.toNat) = some m) :
    step s = exec (assemble m (s.mem.get (s.pc.toNat + 1)) (s.mem.get (s.pc.toNat + 2))) s := by
  obtain ⟨hhalted, hfault⟩ := hrun
  rw [step, cycle_running _ _ _ hhalted hfault, fetchDecode_strict _ rfl _ hpc, hop]

/-! ## The obligations of 30_encoding.md -/

/-- Settles O3: the mnemonic's byte decodes to it, and the operand bytes are as many as it has. -/
theorem decodeOfEncodeIsTheInstruction : Obligations.DecodeOfEncodeIsTheInstruction := by
  intro p hp i rest
  have hop := decodeOpcode_opcodeMap p hp i.mnemonic
  have hdec := decode_of_decodeOpcode hop (operandBytes_length i) rest
  rwa [assemble_operandBytes] at hdec

/-- Settles O4: the decoder used the opcode byte and the operand bytes, and kept every one of them. -/
theorem encodeOfDecodeIsTheBytes : Obligations.EncodeOfDecodeIsTheBytes := by
  intro p bs rest i h
  obtain ⟨op, m, ops, rfl, hop, hlen, rfl⟩ := decode_eq_ok h
  rw [encode, assemble_mnemonic, operandBytes_assemble_getD hlen, opcodeMap_of_decodeOpcode p op m hop, List.cons_append]

/-- Settles O9: a write past the instruction's length leaves the opcode byte and every byte that is assembled. -/
theorem unusedCandidateBytesAreIgnored : Obligations.UnusedCandidateBytesAreIgnored := by
  intro s m k v hrun _ hpc hop hlen _
  have hkept (j : Nat) (hj : j ≤ m.nops) :
      (s.mem.put (s.pc.toNat + k) v).get (s.pc.toNat + j) = s.mem.get (s.pc.toNat + j) :=
    Memory.get_put_other _ _ _ _ (by simp only [Mnemonic.length] at hlen; omega)
  have hop' : decodeOpcode Config.hardware ((s.mem.put (s.pc.toNat + k) v).get s.pc.toNat) = some m :=
    (hkept 0 (Nat.zero_le _)).symm ▸ hop
  have hstep := step_of_decodeOpcode (s := { s with mem := s.mem.put (s.pc.toNat + k) v }) hrun hpc hop'
  rw [assemble_congr (hkept 1) (hkept 2)] at hstep
  exact ⟨_, assemble_mnemonic m _ _, step_of_decodeOpcode hrun hpc hop, hstep⟩

/-- Settles O1: each word is the encoding of its instruction, followed by the bytes that are left. -/
theorem writtenWordsDecode : Obligations.WrittenWordsDecode := by
  have hdec := decodeOfEncodeIsTheInstruction Config.hardware hardware_injectiveOpcodes
  exact ⟨hdec .hlt [0xFF], hdec (.ldi 0 8) [], hdec (.prn 2) [0xFF], hdec (.add 0 1) [], hdec (.cmp 3 0) [],
    hdec (.push 7) [], hdec (.call 1) [], hdec .ret [], hdec (.jne 3) []⟩

end Sys2Proof.Machine

/-! ## The step as a whole: its stops, its fetch faults, and the instruction it runs (40_execution_cycle.md) -/

namespace Sys2Proof.Machine

/-! ### The step of a Running core -/

section Step
variable {p : Params} {s : State}

theorem stepWith_of_fetchDecode_error {e : Exception} (hrun : s.Running) (h : fetchDecode p s = .error e) :
    stepWith p s = .next (s.faultedWith e.code e.info) :=
  (stepWith_eq_next_iff p s _).2 ⟨hrun, .inl ⟨e, h, rfl⟩⟩

theorem stepWith_of_fetchDecode_ok {i : Instr} (hrun : s.Running) (h : fetchDecode p s = .ok i) :
    stepWith p s = execWith p i s := by
  obtain ⟨hhalted, hfault⟩ := hrun
  rw [stepWith, cycle_running _ _ _ hhalted hfault, h]

/-- A Running core has a next state: fetch and decode raise, or the instruction completes or raises. -/
theorem exists_stepWith_eq_next (hrun : s.Running) : ∃ t, stepWith p s = .next t := by
  cases hfd : fetchDecode p s with
  | error e => exact ⟨_, stepWith_of_fetchDecode_error hrun hfd⟩
  | ok i =>
    rw [stepWith_of_fetchDecode_ok hrun hfd]
    rcases completes_or_raises p s i with ⟨t, hc⟩ | ⟨e, hr⟩
    · exact ⟨t, hc.execWith_eq⟩
    · exact ⟨_, hr.execWith_eq⟩

theorem exists_step_eq_next_iff : (∃ t, step s = .next t) ↔ s.Running := by
  constructor
  · rintro ⟨t, h⟩
    exact ((step_eq_next_iff s t).1 h).1
  · intro hrun
    rw [← stepWith_hardware]
    exact exists_stepWith_eq_next hrun

theorem step_of_halted (h : s.halted = true) : step s = .fault .coreHalted := if_pos h

theorem step_of_faulted (hh : s.halted = false) (hf : s.faultCode ≠ .none) : step s = .fault .coreFaulted := by
  simp [step, cycle, hh, hf]

/-- The ends of a run are the states that are not Running (R80, R192). -/
theorem status_terminal_iff : s.status = .endedWell ∨ s.status = .endedBadly ↔ ¬ s.Running := by
  by_cases hf : s.faultCode = .none
  · cases hh : s.halted <;> simp [State.status, State.Running, hf, hh]
  · simp [State.status, State.Running, hf]

end Step

/-- Settles O10: a Running core has a next state, and every other core is at an end of a run and stops. -/
theorem stepsExactlyWhileRunning : Obligations.StepsExactlyWhileRunning := by
  refine ⟨fun s => exists_step_eq_next_iff, fun s => ?_, fun s => step_of_halted, fun s => step_of_faulted⟩
  rw [status_terminal_iff, ← exists_step_eq_next_iff, not_exists]

/-! ### The fetch (R81, R82) -/

section Fetch
variable {p : Params} {s : State}

theorem fetchDecode_strict_of_first_ge {k : Nat} (hp : p.strictPrefetch = true) (hk : k ≤ 2)
    (hge : 256 ≤ s.pc.toNat + k) (hlt : ∀ j, j < k → s.pc.toNat + j < 256) :
    fetchDecode p s = .error (.outOfBounds .memory (s.pc.toNat + k)) := by
  simp [fetchDecode, hp, fetch_of_first_ge s k hk hge hlt]

theorem step_of_first_ge {k : Nat} (hrun : s.Running) (hk : k ≤ 2) (hge : 256 ≤ s.pc.toNat + k)
    (hlt : ∀ j, j < k → s.pc.toNat + j < 256) :
    step s = .next (s.faultedWith .outOfBounds (.bound .memory (s.pc.toNat + k))) := by
  rw [← stepWith_hardware]
  exact stepWith_of_fetchDecode_error hrun (fetchDecode_strict_of_first_ge rfl hk hge hlt)

/-- From 254 up one of the three fetches is out of range, so that the step faults. -/
theorem pc_le_of_step_unfaulted {t : State} (h : step s = .next t) (ht : t.faultCode = .none) : s.pc.toNat ≤ 253 := by
  refine Nat.not_lt.1 fun hpc => ?_
  obtain ⟨hrun, -⟩ := (step_eq_next_iff s t).1 h
  rw [step_of_first_ge (k := 256 - s.pc.toNat) hrun (by omega) (by omega) (fun j hj => by omega)] at h
  cases h
  cases ht

/-- With the lazy prefetch only the opcode is fetched before decode (R82). -/
theorem fetchDecode_lazy_of_opcode_ge (hp : p.strictPrefetch = false) (hpc : 256 ≤ s.pc.toNat) :
    fetchDecode p s = .error (.outOfBounds .memory s.pc.toNat) := by
  simp [fetchDecode, hp, memRead_of_ge _ s hpc]

theorem fetchDecode_lazy_of_unlisted (hp : p.strictPrefetch = false) (hpc : s.pc.toNat < 256)
    (hop : decodeOpcode p (s.mem.get s.pc.toNat) = none) :
    fetchDecode p s = .error (.invalidInstruction (s.mem.get s.pc.toNat)) := by
  simp [fetchDecode, hp, memRead_of_lt _ s hpc, decodeStage, hop]

/-- With the lazy prefetch and a listed opcode, what is left are the two candidate operands, in order. -/
theorem fetchDecode_lazy_of_decodeOpcode {m : Mnemonic} (hp : p.strictPrefetch = false) (hpc : s.pc.toNat < 256)
    (hop : decodeOpcode p (s.mem.get s.pc.toNat) = some m) :
    fetchDecode p s = (do
      let a ← lazyCandidate (decide (1 ≤ m.nops)) (s.pc.toNat + 1 : Nat) s
      let b ← lazyCandidate (decide (2 ≤ m.nops)) (s.pc.toNat + 2 : Nat) s
      pure (assemble m a b)) := by
  simp [fetchDecode, hp, memRead_of_lt _ s hpc, decodeStage, hop]

theorem fetchDecode_lazy_of_own_bytes_lt {m : Mnemonic} (hp : p.strictPrefetch = false)
    (hop : decodeOpcode p (s.mem.get s.pc.toNat) = some m) (hown : s.pc.toNat + m.nops < 256) :
    fetchDecode p s = .ok (assemble m
      (if s.pc.toNat + 1 < 256 then s.mem.get (s.pc.toNat + 1) else 0)
      (if s.pc.toNat + 2 < 256 then s.mem.get (s.pc.toNat + 2) else 0)) := by
  have candidate (k : Nat) := lazyCandidate_of_ok (decide (k ≤ m.nops)) (s.pc.toNat + k) s
    (fun hk => by have := of_decide_eq_true hk; omega)
  rw [fetchDecode_lazy_of_decodeOpcode hp (by omega) hop, candidate 1, ok_bind, candidate 2, ok_bind, pure_eq_ok]

theorem fetchDecode_lazy_of_first_own_ge {m : Mnemonic} {k : Nat} (hp : p.strictPrefetch = false)
    (hop : decodeOpcode p (s.mem.get s.pc.toNat) = some m) (hk : 1 ≤ k) (hkm : k ≤ m.nops)
    (hge : 256 ≤ s.pc.toNat + k) (hlt : ∀ j, j < k → s.pc.toNat + j < 256) :
    fetchDecode p s = .error (.outOfBounds .memory (s.pc.toNat + k)) := by
  have hm := nops_le_two m
  rw [fetchDecode_lazy_of_decodeOpcode hp (hlt 0 hk) hop]
  obtain rfl | rfl : k = 1 ∨ k = 2 := by omega
  · rw [decide_eq_true hkm, lazyCandidate_of_used _ s hge, error_bind]
    rfl
  · rw [lazyCandidate_of_ok _ _ s (fun _ => hlt 1 (by omega)), ok_bind, decide_eq_true hkm,
      lazyCandidate_of_used _ s hge, error_bind]
    rfl

end Fetch

/-- Settles O7: at 254 and above the first byte out of range is byte `256 - pc`, or the opcode byte at 256 and above. -/
theorem fetchRaisesForTheFirstByteOutOfRange : Obligations.FetchRaisesForTheFirstByteOutOfRange :=
  ⟨fetch_of_le, fun _ _ => step_of_first_ge, fun _ _ => pc_le_of_step_unfaulted⟩

/-- Settles O8: in each of the four cases fetch and decode answer what the clause says, and the step does that. -/
theorem lazyFetchChecksOnlyTheOwnBytes : Obligations.LazyFetchChecksOnlyTheOwnBytes := by
  intro p s hp hrun
  refine ⟨fun hpc => ?_, fun hpc hop => ?_, fun m _ hop => ⟨fun hown => ?_, fun k hk hkm hge hlt => ?_⟩⟩
  · exact stepWith_of_fetchDecode_error hrun (fetchDecode_lazy_of_opcode_ge hp hpc)
  · exact stepWith_of_fetchDecode_error hrun (fetchDecode_lazy_of_unlisted hp hpc hop)
  · rw [Mnemonic.length] at hown
    exact stepWith_of_fetchDecode_ok hrun (fetchDecode_lazy_of_own_bytes_lt hp hop (by omega))
  · rw [Mnemonic.length] at hkm
    exact stepWith_of_fetchDecode_error hrun (fetchDecode_lazy_of_first_own_ge hp hop hk (by omega) hge hlt)

/-! ### Decode and the operand check (R83 to R85) -/

/-- With an injective opcode map the decoder's outputs for a mnemonic's byte are those of the mnemonic (R84). -/
theorem decoder_opcodeMap {p : Params} (hp : p.InjectiveOpcodes) (m : Mnemonic) :
    decoder p (p.opcodeMap m) = .ok ⟨m, m.length, m.nops, m.pcPolicy, m.aluOp, m.isHalt⟩ := by
  rw [decoder, decodeOpcode_opcodeMap p hp m]

/-- Settles O2: each byte is the opcode of its mnemonic. -/
theorem decoderOutputsOfEveryOpcode : Obligations.DecoderOutputsOfEveryOpcode := by
  have outputs := decoder_opcodeMap hardware_injectiveOpcodes
  exact ⟨outputs .hlt, outputs .ldi, outputs .prn, outputs .mul, outputs .add, outputs .cmp, outputs .push,
    outputs .pop, outputs .call, outputs .ret, outputs .jmp, outputs .jeq, outputs .jne⟩

/-- Settles O6: the operand bytes the decoder used are the candidate bytes the step assembles. -/
theorem stepRunsTheDecodedInstruction : Obligations.StepRunsTheDecodedInstruction := by
  intro s i rest hrun hpc hdec
  obtain ⟨op, m, ops, hbytes, hop, hlen, rfl⟩ := decode_eq_ok hdec
  obtain ⟨rfl, hcand⟩ := List.cons_eq_cons.1 hbytes
  have used (k : Nat) (hk : k + 1 ≤ m.nops) :
      [s.mem.get (s.pc.toNat + 1), s.mem.get (s.pc.toNat + 2)].getD k 0 = ops.getD k 0 := by
    rw [hcand, List.getD_eq_getElem?_getD, List.getD_eq_getElem?_getD, List.getElem?_append_left (by omega)]
  rw [step_of_decodeOpcode hrun hpc hop]
  exact congrArg (exec · s) (assemble_congr (used 0) (used 1))

theorem find?_namesNoRegister_of_wellFormed {i : Instr} (h : i.wellFormed = true) :
    i.registerOperands.find? namesNoRegister = none := by
  simpa [Instr.wellFormed, List.find?_eq_none] using h

/-- A well-formed instruction raises for the stack pointer, or is a CALL whose return address is past memory (R85). -/
theorem Raises.eq_of_wellFormed {p : Params} {s : State} {i : Instr} {e : Exception} (h : Raises p s i e)
    (hwf : i.wellFormed = true) :
    (∃ v, e = .outOfBounds .stack v) ∨
      (254 ≤ s.pc.toNat ∧ (∃ a, i = .call a) ∧ e = .outOfBounds .memory (s.pc.toNat + 2)) := by
  cases h with
  | register hbad => simp [find?_namesNoRegister_of_wellFormed hwf] at hbad
  | push | pop | callStack | ret => exact .inl ⟨_, rfl⟩
  | callReturn _ hret => exact .inr ⟨by omega, ⟨_, rfl⟩, rfl⟩

/-- Settles O11: with every register operand in range only the stack pointer and CALL's return address are left to raise. -/
theorem operandCheckComesFirstAndInOrder : Obligations.OperandCheckComesFirstAndInOrder := by
  refine ⟨fun i s v h => ?_, fun a b => ⟨rfl, rfl, rfl, rfl, rfl, rfl, rfl, rfl, rfl, rfl, rfl, rfl, rfl⟩,
    fun i s t hrun hwf h ht => ?_⟩
  · rw [← execWith_hardware]
    exact execWith_of_bad_register _ s i v h
  · rcases (exec_eq_next_iff i s t).1 h with hc | ⟨e, hr, rfl⟩
    · exact absurd (hc.faultStatus_eq.1.trans hrun.2) ht
    · rcases hr.eq_of_wellFormed hwf with ⟨v, rfl⟩ | ⟨hpc, hcall, rfl⟩
      · exact .inl ⟨v, rfl⟩
      · exact .inr ⟨hpc, hcall, rfl⟩

/-! ### The next pc (R87) -/

/-- The 9-bit pc holds the sum of a pc in 0..256 and a length exactly. -/
theorem State.advance_pc_toNat {s : State} {n : Nat} (h : s.pc.toNat + n < 512) :
    (s.advance n).pc.toNat = s.pc.toNat + n := by
  rw [State.advance_pc, BitVec.toNat_ofNat]
  exact Nat.mod_eq_of_lt h

theorem State.jumpTo_pc_toNat (s : State) (v : Byte) : (s.jumpTo v).pc.toNat = v.toNat :=
  BitVec.toNat_setWidth_of_le (by decide)

/-- Where the target is the pc itself, the jump changes nothing (R94). -/
theorem State.jumpTo_eq_self {s : State} {v : Byte} (h : v.toNat = s.pc.toNat) : s.jumpTo v = s := by
  have hpc : (s.jumpTo v).pc = s.pc := BitVec.eq_of_toNat_eq ((s.jumpTo_pc_toNat v).trans h)
  calc s.jumpTo v = { s with pc := (s.jumpTo v).pc } := rfl
    _ = s := by rw [hpc]

theorem eq_of_regOperand {v : Byte} {r : Fin 8} (h : regOperand v = .ok r) : ∃ hv : v.toNat < 8, r = ⟨v.toNat, hv⟩ :=
  have hval := val_eq_of_regOperand h
  ⟨hval ▸ r.isLt, Fin.ext hval⟩

/-- Without SP_WRAP a decrement that does not raise is by one. -/
theorem eq_of_spBelow {p : Params} {v w : Byte} (hp : p.spWrap = false) (h : spBelow p v = some w) : w = v - 1 := by
  unfold spBelow at h
  split at h <;> simp_all

section NextPc
variable {p : Params} {s t : State} {a : Byte}

theorem Completes.pc_of_advance {i : Instr} (h : Completes p s i t) (hpc : s.pc.toNat ≤ 256)
    (hi : i.mnemonic.pcPolicy = .advance) : t.pc.toNat = s.pc.toNat + i.mnemonic.length := by
  have hsum (n : Nat) (hn : n ≤ 3) : s.pc.toNat + n < 512 := by omega
  cases h with
  | hlt => exact State.advance_pc_toNat (hsum 1 (by decide))
  | prn | push | pop => exact State.advance_pc_toNat (hsum 2 (by decide))
  | ldi | mul | add | cmp => exact State.advance_pc_toNat (hsum 3 (by decide))
  | call | ret | jmp | jeqTaken | jeqNotTaken | jneTaken | jneNotTaken => cases hi

theorem Completes.pc_of_jmp (h : Completes p s (.jmp a) t) : ∃ _ : a.toNat < 8, t.pc.toNat = s.regs[a.toNat].toNat := by
  cases h with
  | jmp ha =>
    obtain ⟨hlt, rfl⟩ := eq_of_regOperand ha
    exact ⟨hlt, s.jumpTo_pc_toNat _⟩

/-- CALL's target register is read after the stack pointer's decrement (R140). -/
theorem Completes.pc_of_call (h : Completes Config.hardware s (.call a) t) :
    ∃ _ : a.toNat < 8, t.pc.toNat = (s.regs.set 7 (s.regs[7] - 1))[a.toNat].toNat := by
  cases h with
  | call ha _ hv =>
    obtain ⟨hlt, rfl⟩ := eq_of_regOperand ha
    obtain rfl := eq_of_spBelow rfl hv
    exact ⟨hlt, State.jumpTo_pc_toNat _ _⟩

theorem Completes.pc_of_ret (h : Completes p s .ret t) :
    t.pc.toNat = (s.mem.get (s.reg p.spIndex).toNat).toNat := by
  cases h with
  | ret => exact State.jumpTo_pc_toNat _ _

theorem Completes.pc_of_jeq (h : Completes p s (.jeq a) t) (hpc : s.pc.toNat ≤ 256) : ∃ _ : a.toNat < 8,
    t.pc.toNat = if s.fl.E = true then s.regs[a.toNat].toNat else s.pc.toNat + 2 := by
  cases h with
  | jeqTaken ha hE =>
    obtain ⟨hlt, rfl⟩ := eq_of_regOperand ha
    exact ⟨hlt, (s.jumpTo_pc_toNat _).trans (if_pos hE).symm⟩
  | jeqNotTaken ha hE =>
    obtain ⟨hlt, -⟩ := eq_of_regOperand ha
    exact ⟨hlt, (State.advance_pc_toNat (by omega)).trans (if_neg (by simp [hE])).symm⟩

theorem Completes.pc_of_jne (h : Completes p s (.jne a) t) (hpc : s.pc.toNat ≤ 256) : ∃ _ : a.toNat < 8,
    t.pc.toNat = if s.fl.E = false then s.regs[a.toNat].toNat else s.pc.toNat + 2 := by
  cases h with
  | jneTaken ha hE =>
    obtain ⟨hlt, rfl⟩ := eq_of_regOperand ha
    exact ⟨hlt, (s.jumpTo_pc_toNat _).trans (if_pos hE).symm⟩
  | jneNotTaken ha hE =>
    obtain ⟨hlt, -⟩ := eq_of_regOperand ha
    exact ⟨hlt, (State.advance_pc_toNat (by omega)).trans (if_neg (by simp [hE])).symm⟩

/-- An instruction that ends with no fault code completed. -/
theorem completes_of_exec_unfaulted {i : Instr} (h : exec i s = .next t) (ht : t.faultCode = .none) :
    Completes Config.hardware s i t := by
  rcases (exec_eq_next_iff i s t).1 h with hc | ⟨e, -, rfl⟩
  · exact hc
  · exact absurd ht e.code_ne_none

end NextPc

/-- Settles O26: an instruction that raises nothing completes, and each way to complete sets the pc by its policy. -/
theorem nextPcFollowsThePolicy : Obligations.NextPcFollowsThePolicy := by
  intro i s t hpc h ht
  have hc := completes_of_exec_unfaulted h ht
  refine ⟨hc.pc_of_advance hpc, ?_, ?_, ?_, ?_, ?_⟩
  · rintro a rfl
    exact hc.pc_of_jmp
  · rintro a rfl
    exact hc.pc_of_call
  · rintro rfl
    exact hc.pc_of_ret
  · rintro a rfl
    exact hc.pc_of_jeq hpc
  · rintro a rfl
    exact hc.pc_of_jne hpc

/-! ### The self-jump (R94) -/

/-- A step that gives back the state it began in can be taken any number of times. -/
theorem core_run_of_step_self {s : State} (h : step s = .next s) (k : Nat) :
    Host.Core.run Sys2Proof.core k s = .next s := by
  induction k with
  | zero => rfl
  | succ k ih => rw [core_run_of_next k s s h, ih]

/-- Settles O44: the jump to the pc itself completes in the state it began in. -/
theorem jmpToItselfNeverEnds : Obligations.JmpToItselfNeverEnds := by
  intro s a ha hrun hpc hop hreg htarget
  refine core_run_of_step_self ?_
  have hjmp : decodeOpcode Config.hardware (s.mem.get s.pc.toNat) = some .jmp :=
    hop ▸ decodeOpcode_opcodeMap _ hardware_injectiveOpcodes .jmp
  have hself : s.jumpTo (s.reg ⟨a.toNat, ha⟩) = s := State.jumpTo_eq_self htarget
  have hdone : Completes Config.hardware s (.jmp a) (s.jumpTo (s.reg ⟨a.toNat, ha⟩)) := .jmp (regOperand_of_lt a ha)
  rw [hself] at hdone
  rw [step_of_decodeOpcode hrun hpc hjmp, hreg]
  exact (exec_eq_next_iff _ _ _).2 (.inl hdone)

end Sys2Proof.Machine

/-! ## Where an instruction writes, and the obligations of 41_machine_control.md -/

namespace Sys2Proof

/-- The operand byte that names the register an instruction computes a value for, if there is one: `a` of LDI, MUL, ADD and
POP (R101, R116, R117, R132). -/
def Instr.destination : Instr → Option Byte
  | .ldi a _ | .mul a _ | .add a _ | .pop a => some a
  | .hlt | .prn _ | .cmp _ _ | .push _ | .call _ | .ret | .jmp _ | .jeq _ | .jne _ => none

/-- The mnemonics that move the stack pointer (R131, R132, R140, R141). -/
def Mnemonic.usesStack : Mnemonic → Bool
  | .push | .pop | .call | .ret => true
  | .hlt | .ldi | .prn | .mul | .add | .cmp | .jmp | .jeq | .jne => false

end Sys2Proof

namespace Sys2Proof.Machine

/-! ### The registers, memory and the fault status -/

theorem regOperand_left_of_regOperands {a b : Byte} {ra rb : Fin 8} (h : regOperands a b = .ok (ra, rb)) :
    regOperand a = .ok ra := by
  simp only [regOperands, bind_eq_ok_iff, pure_eq_ok, Except.ok.injEq, Prod.mk.injEq] at h
  obtain ⟨_, ha, _, -, rfl, -⟩ := h
  exact ha

theorem State.reg_setReg_of_ne {s : State} {i j : Fin 8} {v : Byte} (h : j ≠ i) : (s.setReg i v).reg j = s.reg j := by
  rw [State.reg_setReg, if_neg h]

section Writes
variable {p : Params} {s t : State} {i : Instr}

/-- A completing instruction writes no register but its destination and, if it uses the stack, the stack pointer. -/
theorem Completes.reg_eq {j : Fin 8} (h : Completes p s i t) (hdest : ∀ d, i.destination = some d → j.val ≠ d.toNat)
    (hsp : i.mnemonic.usesStack = true → j ≠ p.spIndex) : t.reg j = s.reg j := by
  have hother {d : Byte} {r : Fin 8} (hr : regOperand d = .ok r) (hd : i.destination = some d) : j ≠ r := by
    rintro rfl
    exact hdest d hd (val_eq_of_regOperand hr)
  cases h with
  | hlt | prn | cmp | jmp | jeqTaken | jeqNotTaken | jneTaken | jneNotTaken => rfl
  | ldi ha => exact State.reg_setReg_of_ne (hother ha rfl)
  | mul hab | add hab => exact State.reg_setReg_of_ne (hother (regOperand_left_of_regOperands hab) rfl)
  | push | call | ret => exact State.reg_setReg_of_ne (hsp rfl)
  | pop ha => exact (State.reg_setReg_of_ne (hsp rfl)).trans (State.reg_setReg_of_ne (hother ha rfl))

theorem Completes.mem_eq (h : Completes p s i t) (hpush : i.mnemonic ≠ .push) (hcall : i.mnemonic ≠ .call) :
    t.mem = s.mem := by
  cases h with
  | push => exact absurd rfl hpush
  | call => exact absurd rfl hcall
  | _ => rfl

/-- With every register operand in range only the instructions that use the stack can raise (R85). -/
theorem Raises.usesStack_of_wellFormed {e : Exception} (h : Raises p s i e) (hwf : i.wellFormed = true) :
    i.mnemonic.usesStack = true := by
  cases h with
  | register hbad => simp [find?_namesNoRegister_of_wellFormed hwf] at hbad
  | push | pop | callReturn | callStack | ret => rfl

end Writes

/-! ### What an instruction leaves unchanged, completing or not: a fault entry keeps all but the fault status -/

section Unchanged
variable {s t : State} {i : Instr}

theorem exec_reg_eq {j : Fin 8} (h : exec i s = .next t) (hdest : ∀ d, i.destination = some d → j.val ≠ d.toNat)
    (hsp : i.mnemonic.usesStack = true → j ≠ 7) : t.reg j = s.reg j := by
  rcases (exec_eq_next_iff i s t).1 h with hc | ⟨e, -, rfl⟩
  · exact hc.reg_eq hdest hsp
  · rfl

theorem exec_mem_eq (h : exec i s = .next t) (hpush : i.mnemonic ≠ .push) (hcall : i.mnemonic ≠ .call) :
    t.mem = s.mem := by
  rcases (exec_eq_next_iff i s t).1 h with hc | ⟨e, -, rfl⟩
  · exact hc.mem_eq hpush hcall
  · rfl

theorem exec_fl_eq (h : exec i s = .next t) (hi : i.mnemonic ≠ .cmp) : t.fl = s.fl := by
  refine Decidable.byContradiction fun hne => ?_
  obtain ⟨a, b, rfl⟩ := flagsWrittenByCmpReadByJumps.1 i s t h hne
  exact hi rfl

theorem exec_output_eq (h : exec i s = .next t) (hi : i.mnemonic ≠ .prn) : t.output = s.output := by
  refine Decidable.byContradiction fun hne => ?_
  obtain ⟨a, _, rfl, -⟩ := onlyPrnAppendsToOutput.2 i s t h hne
  exact hi rfl

theorem exec_halted_eq (h : exec i s = .next t) (hi : i.mnemonic ≠ .hlt) : t.halted = s.halted := by
  refine Decidable.byContradiction fun hne => ?_
  obtain ⟨rfl, -⟩ := exec_halted h hne
  exact hi rfl

theorem exec_faultStatus_eq (h : exec i s = .next t) (hi : i.mnemonic.usesStack = false) (hwf : i.wellFormed = true) :
    t.faultCode = s.faultCode ∧ t.faultPc = s.faultPc ∧ t.faultInfo = s.faultInfo := by
  rcases (exec_eq_next_iff i s t).1 h with hc | ⟨e, hr, rfl⟩
  · exact hc.faultStatus_eq
  · simp [hr.usesStack_of_wellFormed hwf] at hi

end Unchanged

/-- Settles O35: the three write their destination and no other register, and use no stack. -/
theorem frameOfRegisterDestination : Obligations.FrameOfRegisterDestination := by
  intro i d b s t hi h
  have hdest : i.destination = some d := by rcases hi with rfl | rfl | rfl <;> rfl
  have hstack : i.mnemonic.usesStack = false := by rcases hi with rfl | rfl | rfl <;> rfl
  have hmem : i.mnemonic ∈ [Mnemonic.ldi, .mul, .add] := by rcases hi with rfl | rfl | rfl <;> simp [Instr.mnemonic]
  have hne (m : Mnemonic) (hm : m ∉ [Mnemonic.ldi, .mul, .add]) : i.mnemonic ≠ m := fun heq => hm (heq ▸ hmem)
  exact ⟨fun j hj => exec_reg_eq h (by simpa [hdest] using hj) (by simp [hstack]),
    exec_fl_eq h (hne .cmp (by decide)), exec_output_eq h (hne .prn (by decide)), exec_halted_eq h (hne .hlt (by decide)),
    fun c => by rw [exec_mem_eq h (hne .push (by decide)) (hne .call (by decide))], exec_faultStatus_eq h hstack⟩

/-- Settles O36: the six have no destination and use no stack. -/
theorem frameOfNoDestination : Obligations.FrameOfNoDestination := by
  intro i s t hi h
  have hdest : i.destination = none := by
    cases i with
    | hlt | prn | cmp | jmp | jeq | jne => rfl
    | ldi | mul | add | push | pop | call | ret => simp [Instr.mnemonic] at hi
  have hstack : i.mnemonic.usesStack = false := by rcases hi with hm | hm | hm | hm | hm | hm <;> rw [hm] <;> rfl
  have hpush : i.mnemonic ≠ .push := fun hm => by simp [hm] at hi
  have hcall : i.mnemonic ≠ .call := fun hm => by simp [hm] at hi
  exact ⟨fun j => exec_reg_eq h (by simp [hdest]) (by simp [hstack]), fun c => by rw [exec_mem_eq h hpush hcall],
    exec_fl_eq h, exec_output_eq h, exec_halted_eq h, exec_faultStatus_eq h hstack⟩

/-! ### HLT, LDI and PRN -/

theorem Completes.exec_eq {s t : State} {i : Instr} (h : Completes Config.hardware s i t) : exec i s = .next t :=
  (exec_eq_next_iff i s t).2 (.inl h)

/-- The first register operand is checked before everything else (R85). -/
theorem exec_of_first_register_ge {s : State} {i : Instr} {a : Byte} {rest : List Byte}
    (hi : i.registerOperands = a :: rest) (ha : 8 ≤ a.toNat) :
    exec i s = .next (s.faultedWith .outOfBounds (.bound .register a.toNat)) :=
  operandCheckComesFirstAndInOrder.1 i s a (by rw [hi, List.find?_cons_of_pos (p := namesNoRegister) (decide_eq_true ha)])

theorem exec_hlt (s : State) :
    exec .hlt s = .next { s with pc := BitVec.ofNat 9 (s.pc.toNat + 1), halted := true } :=
  Completes.hlt.exec_eq

/-- Settles O13: the step assembles HLT from no candidate byte, and the state it leaves has no step. -/
theorem hltHaltsOnePastItsByte : Obligations.HltHaltsOnePastItsByte := by
  refine ⟨rfl, exec_hlt, fun s hrun hop hpc => ?_, fun s hrun _ hpc => ?_, fun s t h u hstep => ?_⟩
  · have hhlt : decodeOpcode Config.hardware (s.mem.get s.pc.toNat) = some .hlt :=
      hop ▸ decodeOpcode_opcodeMap _ hardware_injectiveOpcodes .hlt
    exact (step_of_decodeOpcode hrun hpc hhlt).trans (exec_hlt s)
  · have haddr (k : Nat) (h256 : s.pc.toNat + k = 256) (hk : k ≤ 2) :
        step s = .next (s.faultedWith .outOfBounds (.bound .memory 256)) := by
      have hfault := step_of_first_ge (k := k) hrun hk (by omega) (fun j hj => by omega)
      rwa [show (s.pc.toNat + k : Int) = 256 by omega] at hfault
    rcases hpc with hpc | hpc
    · exact haddr 2 (by simp [hpc]) (by decide)
    · exact haddr 1 (by simp [hpc]) (by decide)
  · obtain rfl : _ = t := by simpa [exec_hlt] using h
    cases (step_of_halted rfl).symm.trans hstep

/-- Settles O14. -/
theorem ldiLoadsTheImmediate : Obligations.LdiLoadsTheImmediate := fun _ a _ =>
  ⟨rfl, fun ha => (Completes.ldi (regOperand_of_lt a ha)).exec_eq, exec_of_first_register_ge rfl⟩

/-- The events of a step that appends `vs` to the output are `vs`. -/
theorem outEvents_of_output_eq_append {s t : State} {vs : List Byte} (h : t.output = s.output ++ vs) :
    outEvents s t = vs := by
  rw [outEvents, h, List.drop_left]

/-- Settles O15: the one way for PRN to complete appends the register's value, and a fault entry appends nothing. -/
theorem prnEmitsTheRegister : Obligations.PrnEmitsTheRegister := by
  refine fun s a => ⟨rfl, fun ha => ?_, fun ha => ?_⟩
  · have hexec := (Completes.prn (s := s) (regOperand_of_lt a ha)).exec_eq
    refine ⟨hexec, fun t h => ?_⟩
    cases hexec.symm.trans h
    exact outEvents_of_output_eq_append rfl
  · have hexec : exec (.prn a) s = _ := exec_of_first_register_ge rfl ha
    refine ⟨hexec, fun t h => ?_⟩
    cases hexec.symm.trans h
    exact outEvents_of_output_eq_append (List.append_nil _).symm

end Sys2Proof.Machine

/-! ## What fetch and decode raise, and the obligations of 42_alu.md -/

namespace Sys2Proof.Machine

/-! ### No step raises UnsupportedOperation (R115) -/

theorem bind_eq_error_iff {α β : Type} (x : Except Exception α) (f : α → Except Exception β) (e : Exception) :
    (x >>= f) = .error e ↔ x = .error e ∨ ∃ a, x = .ok a ∧ f a = .error e := by
  cases x <;> simp

theorem memRead_eq_error {addr : Int} {s : State} {e : Exception} (h : memRead addr s = .error e) :
    e = .outOfBounds .memory addr := by
  unfold memRead at h
  split at h <;> cases h
  rfl

theorem lazyCandidate_eq_error {used : Bool} {addr : Int} {s : State} {e : Exception}
    (h : lazyCandidate used addr s = .error e) : e = .outOfBounds .memory addr := by
  unfold lazyCandidate at h
  split at h
  · exact memRead_eq_error h
  · cases h

theorem decodeStage_eq_error {p : Params} {op : Byte} {e : Exception} (h : decodeStage p op = .error e) :
    e = .invalidInstruction op := by
  unfold decodeStage at h
  split at h <;> cases h
  rfl

theorem fetch_eq_error {s : State} {e : Exception} (h : fetch s = .error e) : ∃ addr, e = .outOfBounds .memory addr := by
  simp only [fetch, bind_eq_error_iff, pure_eq_ok, reduceCtorEq, and_false, exists_false, or_false] at h
  rcases h with h | ⟨_, -, h | ⟨_, -, h⟩⟩ <;> exact ⟨_, memRead_eq_error h⟩

/-- For either setting of STRICT_PREFETCH fetch and decode raise only the bound of a read (R81, R82) and the invalid opcode
(R83). -/
theorem fetchDecode_eq_error {p : Params} {s : State} {e : Exception} (h : fetchDecode p s = .error e) :
    (∃ addr, e = .outOfBounds .memory addr) ∨ ∃ op, e = .invalidInstruction op := by
  unfold fetchDecode at h
  split at h <;> simp only [bind_eq_error_iff, pure_eq_ok, reduceCtorEq, and_false, exists_false, or_false] at h
  · rcases h with h | ⟨_, -, h⟩
    · exact .inl (fetch_eq_error h)
    · exact .inr ⟨_, decodeStage_eq_error h⟩
  · rcases h with h | ⟨_, -, h | ⟨_, -, h | ⟨_, -, h⟩⟩⟩
    · exact .inl ⟨_, memRead_eq_error h⟩
    · exact .inr ⟨_, decodeStage_eq_error h⟩
    · exact .inl ⟨_, lazyCandidate_eq_error h⟩
    · exact .inl ⟨_, lazyCandidate_eq_error h⟩

/-- Every exception of an instruction is a bound: of a register operand, of the stack or of a return address. -/
theorem Raises.code_eq {p : Params} {s : State} {i : Instr} {e : Exception} (h : Raises p s i e) :
    e.code = .outOfBounds := by
  cases h <;> rfl

theorem aluSel_ne_three (op : AluOp) : aluSel op ≠ 3 := by cases op <;> decide

/-- Settles O31: fetch and decode raise a bound or an invalid opcode, an instruction raises a bound, and one that completes
keeps the code 0 of the Running core. -/
theorem unsupportedOperationIsUnreachable : Obligations.UnsupportedOperationIsUnreachable := by
  refine ⟨fun _ _ => rfl, fun _ _ _ op _ _ => aluSel_ne_three op, fun p s t h => ?_⟩
  obtain ⟨hrun, ⟨e, he, rfl⟩ | ⟨i, -, hexec⟩⟩ := (stepWith_eq_next_iff p s t).1 h
  · rcases fetchDecode_eq_error he with ⟨_, rfl⟩ | ⟨_, rfl⟩ <;> exact nofun
  · rcases (execWith_eq_next_iff p i s t).1 hexec with hc | ⟨e, hr, rfl⟩
    · simp [hc.faultStatus_eq.1, hrun.2]
    · simp [hr.code_eq]

/-! ### The narrowing and the comparison (R112 to R114) -/

/-- The alu keeps the low 8 bits of an exact result, which are the result modulo 256. -/
theorem ofNat_mod_256 (n : Nat) : BitVec.ofNat 8 (n % 256) = BitVec.ofNat 8 n :=
  BitVec.eq_of_toNat_eq (Nat.mod_mod n 256)

theorem compareFlags_of_eq {a b : Byte} (h : a.toNat = b.toNat) : compareFlags a b = ⟨true, false, false⟩ := if_pos h

theorem compareFlags_of_gt {a b : Byte} (h : b.toNat < a.toNat) : compareFlags a b = ⟨false, true, false⟩ :=
  (if_neg (Nat.ne_of_gt h)).trans (if_pos h)

theorem compareFlags_of_lt {a b : Byte} (h : a.toNat < b.toNat) : compareFlags a b = ⟨false, false, true⟩ :=
  (if_neg (Nat.ne_of_lt h)).trans (if_neg (Nat.lt_asymm h))

/-- Settles O32. -/
theorem aluComputesUnsignedModulo256 : Obligations.AluComputesUnsignedModulo256 := fun a b =>
  ⟨⟨_, alu_add a b, by rw [ofNat_mod_256], rfl, rfl⟩, ⟨_, alu_multiply a b, by rw [ofNat_mod_256], rfl, rfl⟩,
    ⟨_, alu_compare a b, rfl, rfl, compareFlags_of_eq, compareFlags_of_gt, compareFlags_of_lt⟩⟩

/-! ### MUL, ADD and CMP -/

/-- The second register operand is checked after a first one that names a register (R85). -/
theorem exec_of_second_register_ge {s : State} {i : Instr} {a b : Byte} {rest : List Byte}
    (hi : i.registerOperands = a :: b :: rest) (ha : a.toNat < 8) (hb : 8 ≤ b.toNat) :
    exec i s = .next (s.faultedWith .outOfBounds (.bound .register b.toNat)) :=
  operandCheckComesFirstAndInOrder.1 i s b (by simp [hi, hb, Nat.not_le.2 ha])

/-- Settles O16. -/
theorem mulMultipliesModulo256 : Obligations.MulMultipliesModulo256 := by
  refine fun s a b => ⟨rfl, fun ha hb => ?_, exec_of_first_register_ge rfl, exec_of_second_register_ge rfl⟩
  rw [ofNat_mod_256]
  exact (Completes.mul (regOperands_of_lt a b ha hb)).exec_eq

/-- Settles O17. -/
theorem addAddsModulo256 : Obligations.AddAddsModulo256 := by
  refine fun s a b => ⟨rfl, fun ha hb => ?_, exec_of_first_register_ge rfl, exec_of_second_register_ge rfl⟩
  rw [ofNat_mod_256]
  exact (Completes.add (regOperands_of_lt a b ha hb)).exec_eq

/-- CMP writes FL with the flags of the comparison and advances, whatever FL was (R118). -/
theorem exec_cmp_of_compareFlags {s : State} {a b : Byte} {f : Flags} (ha : a.toNat < 8) (hb : b.toNat < 8)
    (hf : compareFlags s.regs[a.toNat] s.regs[b.toNat] = f) :
    exec (.cmp a b) s = .next { s with fl := f, pc := BitVec.ofNat 9 (s.pc.toNat + 3) } :=
  hf ▸ (Completes.cmp (regOperands_of_lt a b ha hb)).exec_eq

/-- Settles O18: each of the three relations fixes the flags of the comparison. -/
theorem cmpSetsExactlyOneFlag : Obligations.CmpSetsExactlyOneFlag := by
  refine fun s a b => ⟨rfl, fun ha hb => ⟨fun h => ?_, fun h => ?_, fun h => ?_⟩, exec_of_first_register_ge rfl,
    exec_of_second_register_ge rfl⟩
  · exact exec_cmp_of_compareFlags ha hb (compareFlags_of_eq h)
  · exact exec_cmp_of_compareFlags ha hb (compareFlags_of_gt h)
  · exact exec_cmp_of_compareFlags ha hb (compareFlags_of_lt h)

end Sys2Proof.Machine

/-! ## The stack, and the obligations of 43_stack.md -/

namespace Sys2Proof.Machine

/-! ### The stack pointer (R130) -/

section StackPointer
variable {p : Params} {v : Byte}

theorem spBelow_of_zero_wrap (h : v = 0) (hw : p.spWrap = true) : spBelow p v = some 255 := (if_pos h).trans (if_pos hw)

theorem spBelow_of_zero (h : v = 0) (hw : p.spWrap = false) : spBelow p v = none :=
  (if_pos h).trans (if_neg (Bool.eq_false_iff.1 hw))

theorem spBelow_of_ne (h : v ≠ 0) : spBelow p v = some (v - 1) := if_neg h

theorem spAbove_of_max_wrap (h : v = 255) (hw : p.spWrap = true) : spAbove p v = some 0 := (if_pos h).trans (if_pos hw)

theorem spAbove_of_max (h : v = 255) (hw : p.spWrap = false) : spAbove p v = none :=
  (if_pos h).trans (if_neg (Bool.eq_false_iff.1 hw))

theorem spAbove_of_ne (h : v ≠ 255) : spAbove p v = some (v + 1) := if_neg h

/-- Away from 0 a byte's decrement is exact. -/
theorem toNat_sub_one_of_ne (h : v ≠ 0) : (v - 1).toNat = v.toNat - 1 := by bv_omega

/-- Away from 255 a byte's increment is exact. -/
theorem toNat_add_one_of_ne (h : v ≠ 255) : (v + 1).toNat = v.toNat + 1 := by bv_omega

end StackPointer

/-- Settles O33: the six cases are those of the value each gives the pointer, and every byte is an address. -/
theorem stackPointerNeverLeavesItsRange : Obligations.StackPointerNeverLeavesItsRange := by
  refine ⟨rfl, fun p s => ⟨fun h hw => spDec_of_some (spBelow_of_zero_wrap h hw),
    fun h hw => spDec_of_none (spBelow_of_zero h hw), fun h => ⟨_, spDec_of_some (spBelow_of_ne h), ?_⟩,
    fun h hw => spInc_of_some (spAbove_of_max_wrap h hw), fun h hw => spInc_of_none (spAbove_of_max h hw),
    fun h => ⟨_, spInc_of_some (spAbove_of_ne h), ?_⟩, fun w _ v => ⟨memRead_byte _ w, memWrite_byte _ v w⟩⟩⟩
  · rw [State.reg_setReg_same]
    exact ⟨toNat_sub_one_of_ne h, rfl⟩
  · rw [State.reg_setReg_same]
    exact ⟨toNat_add_one_of_ne h, rfl⟩

/-! ### PUSH and POP -/

theorem Raises.exec_eq {s : State} {i : Instr} {e : Exception} (h : Raises Config.hardware s i e) :
    exec i s = .next (enterFault e s) :=
  (exec_eq_next_iff i s _).2 (.inr ⟨e, h, rfl⟩)

theorem State.setReg_reg_self (s : State) (i : Fin 8) : s.setReg i (s.reg i) = s := by
  simp [State.setReg, State.reg]

section PushPop
variable {s : State} {a v : Byte} {ra : Fin 8}

theorem exec_push_of_ne (ha : regOperand a = .ok ra) (hsp : s.reg 7 ≠ 0) :
    exec (.push a) s = .next (({ s.setReg 7 (s.reg 7 - 1) with
      mem := s.mem.put (s.reg 7 - 1).toNat ((s.setReg 7 (s.reg 7 - 1)).reg ra) } : State).advance 2) :=
  Completes.exec_eq (.push ha (spBelow_of_ne hsp))

theorem exec_push_of_zero (ha : regOperand a = .ok ra) (hsp : s.reg 7 = 0) :
    exec (.push a) s = .next (s.faultedWith .outOfBounds (.bound .stack (-1))) :=
  Raises.exec_eq (.push ha (spBelow_of_zero hsp rfl))

/-- POP increments the pointer that the write of the popped byte leaves (R132). -/
theorem exec_pop_of_ne (ha : regOperand a = .ok ra) (hv : (s.setReg ra (s.mem.get (s.reg 7).toNat)).reg 7 = v)
    (hsp : v ≠ 255) :
    exec (.pop a) s = .next (((s.setReg ra (s.mem.get (s.reg 7).toNat)).setReg 7 (v + 1)).advance 2) :=
  Completes.exec_eq (.pop ha (hv ▸ spAbove_of_ne (hv ▸ hsp)))

theorem exec_pop_of_max (ha : regOperand a = .ok ra) (hv : (s.setReg ra (s.mem.get (s.reg 7).toNat)).reg 7 = 255) :
    exec (.pop a) s = .next (s.faultedWith .outOfBounds (.bound .stack 256)) :=
  Raises.exec_eq (.pop ha (spAbove_of_max hv rfl))

/-- A POP of the byte its register already holds, R7 included, moves the stack pointer and nothing else. -/
theorem exec_pop_of_get_eq_reg (ha : regOperand a = .ok ra) (hv : s.mem.get (s.reg 7).toNat = s.reg ra)
    (hsp : s.reg 7 ≠ 255) : exec (.pop a) s = .next ((s.setReg 7 (s.reg 7 + 1)).advance 2) := by
  have hself : s.setReg ra (s.mem.get (s.reg 7).toNat) = s := by rw [hv, State.setReg_reg_self]
  rw [exec_pop_of_ne ha (congrArg (State.reg · 7) hself) hsp, hself]

end PushPop

/-- Settles O19: with the operand in range the stack pointer alone says whether PUSH completes or raises. -/
theorem pushStoresBelowTheStackPointer : Obligations.PushStoresBelowTheStackPointer := fun _ a =>
  ⟨rfl, fun ha => exec_push_of_ne (regOperand_of_lt a ha), fun ha => exec_push_of_zero (regOperand_of_lt a ha),
    exec_of_first_register_ge rfl⟩

/-- An operand other than 7 does not name the stack pointer. -/
theorem sp_ne_of_operand_ne {a : Byte} (ha : a.toNat < 8) (h : a ≠ 7) : (7 : Fin 8) ≠ ⟨a.toNat, ha⟩ :=
  fun heq => h (BitVec.eq_of_toNat_eq (congrArg Fin.val heq).symm)

/-- Settles O20: the write of the popped byte leaves that byte in the stack pointer for POP R7 and the old pointer for every
other register. -/
theorem popLoadsFromTheStackPointer : Obligations.PopLoadsFromTheStackPointer := by
  intro s a
  have kept (ha : a.toNat < 8) (hne : a ≠ 7) (v : Byte) : (s.setReg ⟨a.toNat, ha⟩ v).reg 7 = s.reg 7 :=
    State.reg_setReg_of_ne (sp_ne_of_operand_ne ha hne)
  have popped (v : Byte) : (s.setReg 7 v).reg 7 = v := s.reg_setReg_same 7 v
  have hseven : regOperand 7 = .ok 7 := rfl
  refine ⟨rfl, fun ha hne => exec_pop_of_ne (regOperand_of_lt a ha) (kept ha hne _), fun hv => ?_,
    fun ha hne hsp => exec_pop_of_max (regOperand_of_lt a ha) ((kept ha hne _).trans hsp),
    fun hv => exec_pop_of_max hseven ((popped _).trans hv), exec_of_first_register_ge rfl⟩
  rw [exec_pop_of_ne hseven (popped _) hv, State.setReg_setReg]
  rfl

/-! ### What the stack instructions leave unchanged -/

section StackFrame
variable {s t : State} {i : Instr}

theorem exec_control_eq_of_usesStack (h : exec i s = .next t) (hi : i.mnemonic.usesStack = true) :
    t.fl = s.fl ∧ t.output = s.output ∧ t.halted = s.halted := by
  have hne (m : Mnemonic) (hm : m.usesStack = false) : i.mnemonic ≠ m := fun heq => by simp [heq, hm] at hi
  exact ⟨exec_fl_eq h (hne .cmp rfl), exec_output_eq h (hne .prn rfl), exec_halted_eq h (hne .hlt rfl)⟩

/-- Every fault entry of an instruction is of an OutOfBounds exception. -/
theorem exec_faultStatus_eq_or_faultedWith (h : exec i s = .next t) :
    (t.faultCode = s.faultCode ∧ t.faultPc = s.faultPc ∧ t.faultInfo = s.faultInfo) ∨
      ∃ info, t = s.faultedWith .outOfBounds info := by
  rcases (exec_eq_next_iff i s t).1 h with hc | ⟨e, hr, rfl⟩
  · exact .inl hc.faultStatus_eq
  · exact .inr ⟨e.info, by rw [← hr.code_eq]; rfl⟩

/-- An instruction keeps memory, or stores one byte at the address `SpDec()` gives (R131, R140). -/
theorem Completes.mem_eq_or_put {p : Params} (h : Completes p s i t) :
    t.mem = s.mem ∨ ∃ v x, spDec p s = .ok (s.setReg p.spIndex v) ∧ t.mem = s.mem.put v.toNat x := by
  cases h with
  | push _ hv | call _ _ hv => exact .inr ⟨_, _, spDec_of_some hv, rfl⟩
  | _ => exact .inl rfl

theorem exec_mem_eq_or_put (h : exec i s = .next t) :
    t.mem = s.mem ∨ ∃ v x, spDec Config.hardware s = .ok (s.setReg 7 v) ∧ t.mem = s.mem.put v.toNat x := by
  rcases (exec_eq_next_iff i s t).1 h with hc | ⟨e, -, rfl⟩
  · exact hc.mem_eq_or_put
  · exact .inl rfl

theorem exec_get_eq_of_spDec_ok {w : State} {c : Nat} (h : exec i s = .next t) (hw : spDec Config.hardware s = .ok w)
    (hc : c ≠ (w.reg 7).toNat) : t.mem.get c = s.mem.get c := by
  rcases exec_mem_eq_or_put h with hmem | ⟨v, x, hdec, hmem⟩
  · rw [hmem]
  · obtain rfl : w = s.setReg 7 v := by simpa [hw] using hdec
    rw [State.reg_setReg_same] at hc
    rw [hmem, Memory.get_put_other _ _ _ _ hc]

theorem exec_mem_eq_of_spDec_error {e : Exception} (h : exec i s = .next t) (he : spDec Config.hardware s = .error e) :
    t.mem = s.mem :=
  (exec_mem_eq_or_put h).resolve_right fun ⟨_, _, hdec, _⟩ => by simp [he] at hdec

end StackFrame

/-- Settles O37: the two have no destination, and store at the address `SpDec()` gives. -/
theorem frameOfStackStore : Obligations.FrameOfStackStore := by
  intro i a s t hi h
  have hdest : i.destination = none := by rcases hi with rfl | rfl <;> rfl
  have hstack : i.mnemonic.usesStack = true := by rcases hi with rfl | rfl <;> rfl
  obtain ⟨hfl, hout, hhalted⟩ := exec_control_eq_of_usesStack h hstack
  exact ⟨fun j hj => exec_reg_eq h (by simp [hdest]) fun _ => hj, hfl, hout, hhalted,
    fun w hw c hc => exec_get_eq_of_spDec_ok h hw hc, fun e he c => by rw [exec_mem_eq_of_spDec_error h he],
    exec_faultStatus_eq_or_faultedWith h⟩

/-- Settles O38: the two store nothing, and POP alone has a destination. -/
theorem frameOfStackLoad : Obligations.FrameOfStackLoad := by
  intro i s t hi h
  have hdest (d : Byte) (hd : i.destination = some d) : i = .pop d := by
    rcases hi with ⟨a, rfl⟩ | rfl <;> cases hd
    rfl
  have hmnemonic : i.mnemonic = .pop ∨ i.mnemonic = .ret := by rcases hi with ⟨a, rfl⟩ | rfl <;> simp [Instr.mnemonic]
  have hstack : i.mnemonic.usesStack = true := by rcases hmnemonic with hm | hm <;> rw [hm] <;> rfl
  have hpush : i.mnemonic ≠ .push := fun hm => by simp [hm] at hmnemonic
  have hcall : i.mnemonic ≠ .call := fun hm => by simp [hm] at hmnemonic
  obtain ⟨hfl, hout, hhalted⟩ := exec_control_eq_of_usesStack h hstack
  exact ⟨fun j hj hpop => exec_reg_eq h (fun d hd => hpop d (hdest d hd)) fun _ => hj, hfl, hout, hhalted,
    fun c => by rw [exec_mem_eq h hpush hcall], exec_faultStatus_eq_or_faultedWith h⟩

/-! ### PUSH then POP (R133) -/

/-- Settles O41: the pushed byte is the register after the decrement, so the POP only moves the stack pointer back. -/
theorem pushThenPopRestoresTheRegister : Obligations.PushThenPopRestoresTheRegister := by
  intro s a ha hsp hwf
  have hreg := regOperand_of_lt a ha
  have hlow : (s.regs.set 7 (s.regs[7] - 1))[7] = s.regs[7] - 1 := Vector.getElem_set_self _
  have hmax : (s.regs.set 7 (s.regs[7] - 1))[7] ≠ 255 := by
    rw [hlow]
    bv_omega
  have hstored : (s.mem.put (s.regs[7] - 1).toNat (s.regs.set 7 (s.regs[7] - 1))[a.toNat]).get
      (s.regs.set 7 (s.regs[7] - 1))[7].toNat = (s.regs.set 7 (s.regs[7] - 1))[a.toNat] := by
    rw [hlow, Memory.get_put_same _ _ _ hwf]
  have hback : (s.regs.set 7 (s.regs[7] - 1)).set 7 ((s.regs.set 7 (s.regs[7] - 1))[7] + 1) = s.regs := by
    rw [hlow, Vector.set_set, BitVec.sub_add_cancel, Vector.set_getElem_self]
  exact ⟨_, _, exec_push_of_ne hreg hsp, rfl, hlow, hstored, rfl, rfl, rfl,
    exec_pop_of_get_eq_reg hreg hstored hmax, rfl, hback, rfl, rfl, rfl⟩

end Sys2Proof.Machine

/-! ## The obligations of 44_control_transfer.md -/

namespace Sys2Proof.Machine

/-! ### CALL, RET and the jumps -/

theorem State.jumpTo_eq_with_pc (s : State) (v : Byte) : s.jumpTo v = { s with pc := BitVec.ofNat 9 v.toNat } := by
  rw [BitVec.ofNat_toNat]
  rfl

section Transfer
variable {s w : State} {i : Instr} {a v : Byte} {ra : Fin 8}

theorem Completes.exec_eq_of_jumpTo (h : Completes Config.hardware s i (w.jumpTo v)) :
    exec i s = .next { w with pc := BitVec.ofNat 9 v.toNat } :=
  w.jumpTo_eq_with_pc v ▸ h.exec_eq

theorem exec_call_of_ne (ha : regOperand a = .ok ra) (hpc : s.pc.toNat ≤ 253) (hsp : s.reg 7 ≠ 0) :
    exec (.call a) s = .next { s.setReg 7 (s.reg 7 - 1) with
      mem := s.mem.put (s.reg 7 - 1).toNat (BitVec.ofNat 8 (s.pc.toNat + 2)),
      pc := BitVec.ofNat 9 ((s.setReg 7 (s.reg 7 - 1)).reg ra).toNat } :=
  Completes.exec_eq_of_jumpTo (.call ha (by omega) (spBelow_of_ne hsp))

theorem exec_call_of_pc_ge (ha : regOperand a = .ok ra) (hpc : 254 ≤ s.pc.toNat) :
    exec (.call a) s = .next (s.faultedWith .outOfBounds (.bound .memory (s.pc.toNat + 2))) :=
  Raises.exec_eq (.callReturn ha (by omega))

theorem exec_call_of_zero (ha : regOperand a = .ok ra) (hpc : s.pc.toNat ≤ 253) (hsp : s.reg 7 = 0) :
    exec (.call a) s = .next (s.faultedWith .outOfBounds (.bound .stack (-1))) :=
  Raises.exec_eq (.callStack ha (by omega) (spBelow_of_zero hsp rfl))

/-- Of what CALL raises only the check of its return address is a memory bound (R140). -/
theorem Raises.call_info_ne_memory {p : Params} {e : Exception} (h : Raises p s (.call a) e) (hpc : s.pc.toNat ≤ 253)
    (x : Int) : e.info ≠ .bound .memory x := by
  cases h with
  | register | callStack => simp [Exception.info]
  | callReturn _ hret => omega

theorem exec_call_ne_memory_fault (hcode : s.faultCode = .none) (hpc : s.pc.toNat ≤ 253) (x : Int) :
    exec (.call a) s ≠ .next (s.faultedWith .outOfBounds (.bound .memory x)) := by
  intro h
  rcases (exec_eq_next_iff _ s _).1 h with hc | ⟨e, hr, he⟩
  · have hkept : FaultCode.outOfBounds = s.faultCode := hc.faultStatus_eq.1
    simp [hcode] at hkept
  · exact hr.call_info_ne_memory hpc x (congrArg State.faultInfo he).symm

theorem exec_ret_of_ne (hsp : s.reg 7 ≠ 255) :
    exec .ret s = .next { s.setReg 7 (s.reg 7 + 1) with pc := BitVec.ofNat 9 (s.mem.get (s.reg 7).toNat).toNat } :=
  Completes.exec_eq_of_jumpTo (.ret (spAbove_of_ne hsp))

theorem exec_ret_of_max (hsp : s.reg 7 = 255) :
    exec .ret s = .next (s.faultedWith .outOfBounds (.bound .stack 256)) :=
  Raises.exec_eq (.ret (spAbove_of_max hsp rfl))

end Transfer

/-- Settles O21: with the operand in range the pc and then the stack pointer say whether CALL completes or raises. -/
theorem callPushesTheReturnAddress : Obligations.CallPushesTheReturnAddress := by
  refine fun s a => ⟨rfl, fun ha => exec_call_of_ne (regOperand_of_lt a ha), exec_of_first_register_ge rfl,
    fun ha => exec_call_of_pc_ge (regOperand_of_lt a ha), fun ha => exec_call_of_zero (regOperand_of_lt a ha),
    fun hrun hop hpc x => ?_⟩
  have hcall : decodeOpcode Config.hardware (s.mem.get s.pc.toNat) = some .call :=
    hop ▸ decodeOpcode_opcodeMap _ hardware_injectiveOpcodes .call
  rw [step_of_decodeOpcode hrun hpc hcall]
  exact exec_call_ne_memory_fault hrun.2 hpc x

/-- Settles O22: the stack pointer alone says whether RET completes or raises. -/
theorem retPopsTheProgramCounter : Obligations.RetPopsTheProgramCounter :=
  ⟨rfl, fun _ => exec_ret_of_ne, fun _ => exec_ret_of_max⟩

/-- Settles O23. -/
theorem jmpSetsTheProgramCounter : Obligations.JmpSetsTheProgramCounter := fun _ a =>
  ⟨rfl, fun ha => (Completes.jmp (regOperand_of_lt a ha)).exec_eq_of_jumpTo, exec_of_first_register_ge rfl⟩

/-- Settles O24: E chooses between the two ways for JEQ to complete. -/
theorem jeqJumpsWhenEqual : Obligations.JeqJumpsWhenEqual := by
  refine ⟨fun s a => ⟨rfl, fun ha => ⟨fun hE => ?_, fun hE => ?_⟩, exec_of_first_register_ge rfl⟩, rfl⟩
  · exact (Completes.jeqTaken (regOperand_of_lt a ha) hE).exec_eq_of_jumpTo
  · exact (Completes.jeqNotTaken (regOperand_of_lt a ha) hE).exec_eq

/-- Settles O25: E chooses between the two ways for JNE to complete. -/
theorem jneJumpsWhenNotEqual : Obligations.JneJumpsWhenNotEqual := by
  refine ⟨fun s a => ⟨rfl, fun ha => ⟨fun hE => ?_, fun hE => ?_⟩, exec_of_first_register_ge rfl⟩, rfl⟩
  · exact (Completes.jneTaken (regOperand_of_lt a ha) hE).exec_eq_of_jumpTo
  · exact (Completes.jneNotTaken (regOperand_of_lt a ha) hE).exec_eq

/-! ### CALL then RET (R140, R141) -/

/-- An address of memory passes through its byte unchanged, from the pc's width and back to it. -/
theorem toNat_ofNat_pc_of_byte {n : Nat} (h : n ≤ 255) : (BitVec.ofNat 9 (BitVec.ofNat 8 n).toNat).toNat = n := by
  rw [BitVec.toNat_ofNat, BitVec.toNat_ofNat]
  omega

theorem sub_one_ne_max_of_ne {v : Byte} (h : v ≠ 0) : v - 1 ≠ 255 := by bv_omega

/-- Settles O42: RET reads the byte CALL stored, the return address, and moves the stack pointer back. -/
theorem callThenRetReturnsPastTheCall : Obligations.CallThenRetReturnsPastTheCall := by
  intro s a ha hpc hsp hwf
  have hlow : (s.setReg 7 (s.reg 7 - 1)).reg 7 = s.reg 7 - 1 := State.reg_setReg_same _ _ _
  have hmax : (s.setReg 7 (s.reg 7 - 1)).reg 7 ≠ 255 := by
    rw [hlow]
    exact sub_one_ne_max_of_ne hsp
  have hstored : (s.mem.put (s.reg 7 - 1).toNat (BitVec.ofNat 8 (s.pc.toNat + 2))).get
      ((s.setReg 7 (s.reg 7 - 1)).reg 7).toNat = BitVec.ofNat 8 (s.pc.toNat + 2) := by
    rw [hlow, Memory.get_put_same _ _ _ hwf]
  have hback : ((s.setReg 7 (s.reg 7 - 1)).setReg 7 ((s.setReg 7 (s.reg 7 - 1)).reg 7 + 1)).regs = s.regs := by
    rw [hlow, State.setReg_setReg, BitVec.sub_add_cancel, State.setReg_reg_self]
  refine ⟨_, _, exec_call_of_ne (regOperand_of_lt a ha) hpc hsp, exec_ret_of_ne hmax, ?_, hback⟩
  exact (congrArg (fun v => (BitVec.ofNat 9 v.toNat).toNat) hstored).trans (toNat_ofNat_pc_of_byte (by omega))

end Sys2Proof.Machine

/-! ## The obligations of 60_exceptions.md -/

namespace Sys2Proof.Machine

/-! ### The bytes that are no opcode (R162) -/

/-- A byte decodes to no mnemonic when it is none of the opcode bytes (R83). -/
theorem decodeOpcode_eq_none_of_not_mem {p : Params} {op : Byte} (h : op ∉ Mnemonic.all.map p.opcodeMap) :
    decodeOpcode p op = none :=
  (decodeOpcode_none_iff p op).2 fun m hm => h (hm ▸ List.mem_map_of_mem m.mem_all)

/-- With an injective opcode map the listed bytes are the thirteen opcode bytes of the mnemonics. -/
theorem filter_isSome_decodeOpcode_perm {p : Params} (hp : p.InjectiveOpcodes) :
    ((List.range 256).filter fun n => (decodeOpcode p (BitVec.ofNat 8 n)).isSome).Perm
      (Mnemonic.all.map fun m => (p.opcodeMap m).toNat) := by
  have hall : Mnemonic.all.Nodup := by decide
  have hnodup : (Mnemonic.all.map fun m => (p.opcodeMap m).toNat).Nodup :=
    List.Pairwise.map _ (fun m n hne heq => hne (hp m n (BitVec.eq_of_toNat_eq heq))) hall
  refine (List.perm_ext_iff_of_nodup (List.nodup_range.filter _) hnodup).2 fun n => ?_
  rw [List.mem_filter, List.mem_range, List.mem_map, Option.isSome_iff_exists]
  constructor
  · rintro ⟨hn, m, hm⟩
    refine ⟨m, m.mem_all, ?_⟩
    rw [opcodeMap_of_decodeOpcode p _ m hm, BitVec.toNat_ofNat, Nat.mod_eq_of_lt hn]
  · rintro ⟨m, -, rfl⟩
    refine ⟨BitVec.isLt _, m, ?_⟩
    rw [BitVec.ofNat_toNat, BitVec.setWidth_eq, decodeOpcode_opcodeMap p hp]

/-- Any injective opcode map leaves 243 of the 256 byte values unlisted (R162). -/
theorem length_filter_isNone_decodeOpcode {p : Params} (hp : p.InjectiveOpcodes) :
    ((List.range 256).filter fun n => (decodeOpcode p (BitVec.ofNat 8 n)).isNone).length = 243 := by
  have hlisted := (filter_isSome_decodeOpcode_perm hp).length_eq
  have hsplit := List.length_eq_countP_add_countP (l := List.range 256)
    fun n => (decodeOpcode p (BitVec.ofNat 8 n)).isSome
  simp only [List.countP_eq_length_filter, Bool.not_eq_true, Option.isSome_eq_false_iff, Bool.decide_eq_true,
    List.length_range, List.length_map] at hsplit hlisted
  have hthirteen : Mnemonic.all.length = 13 := rfl
  omega

/-! ### The exceptions of a step, in the order of R166 -/

section Order
variable {s : State}

theorem step_of_fetchDecode_error {e : Exception} (hrun : s.Running) (h : fetchDecode Config.hardware s = .error e) :
    step s = .next (s.faultedWith e.code e.info) := by
  rw [← stepWith_hardware]
  exact stepWith_of_fetchDecode_error hrun h

theorem fetchDecode_hardware_of_unlisted (hpc : s.pc.toNat ≤ 253)
    (hop : decodeOpcode Config.hardware (s.mem.get s.pc.toNat) = none) :
    fetchDecode Config.hardware s = .error (.invalidInstruction (s.mem.get s.pc.toNat)) := by
  rw [fetchDecode_strict _ rfl s hpc, hop]

/-- With three fetches in range and an unlisted opcode byte, a step of a running core raises InvalidInstruction (R162). -/
theorem step_of_unlisted (hrun : s.Running) (hpc : s.pc.toNat ≤ 253)
    (hop : decodeOpcode Config.hardware (s.mem.get s.pc.toNat) = none) :
    step s = .next (s.faultedWith .invalidInstruction (.opcode (s.mem.get s.pc.toNat))) :=
  step_of_fetchDecode_error hrun (fetchDecode_hardware_of_unlisted hpc hop)

/-- A well-formed instruction at 253 or below raises nothing but the bounds of the stack pointer. -/
theorem Raises.eq_stack_of_wellFormed {p : Params} {i : Instr} {e : Exception} (h : Raises p s i e)
    (hwf : i.wellFormed = true) (hpc : s.pc.toNat ≤ 253) :
    e = .outOfBounds .stack (-1) ∨ e = .outOfBounds .stack 256 := by
  rcases h.eq_of_wellFormed hwf with ⟨v, rfl⟩ | ⟨hge, -, -⟩
  · obtain ⟨-, rfl | rfl⟩ := h.faultRecordOk hpc
    · exact .inl rfl
    · exact .inr rfl
  · omega

theorem exec_faultedWith_stack_of_wellFormed {t : State} {i : Instr} (hrun : s.Running) (hpc : s.pc.toNat ≤ 253)
    (hwf : i.wellFormed = true) (h : exec i s = .next t) (ht : t.faultCode ≠ .none) :
    t = s.faultedWith .outOfBounds (.bound .stack (-1)) ∨ t = s.faultedWith .outOfBounds (.bound .stack 256) := by
  rcases (exec_eq_next_iff i s t).1 h with hc | ⟨e, hr, rfl⟩
  · exact absurd (hc.faultStatus_eq.1.trans hrun.2) ht
  · rcases hr.eq_stack_of_wellFormed hwf hpc with rfl | rfl
    · exact .inl rfl
    · exact .inr rfl

end Order

/-- Settles O5: the thirteen bytes of R63 are the opcode bytes of the mnemonics, in the table's order. -/
theorem unlistedOpcodeRaisesInvalidInstruction : Obligations.UnlistedOpcodeRaisesInvalidInstruction := by
  refine ⟨fun s op hrun hpc hop hunlisted => ?_, length_filter_isNone_decodeOpcode hardware_injectiveOpcodes, rfl, rfl⟩
  subst hop
  exact step_of_unlisted hrun hpc (decodeOpcode_eq_none_of_not_mem hunlisted)

/-- Settles O12: fetch and decode come before the instruction, whose operand check comes before its own statements. -/
theorem oneFaultPerStepInPriorityOrder : Obligations.OneFaultPerStepInPriorityOrder := by
  refine fun s hrun => ⟨fun h254 h256 => ?_, step_of_unlisted hrun, fun m i hpc hop hi => ?_⟩
  · exact step_of_fetchDecode_error hrun (fetchDecode_hardware_of_ge h254 h256)
  · rw [step_of_decodeOpcode hrun hpc hop, ← hi]
    exact ⟨operandCheckComesFirstAndInOrder.1 i s, fun hwf t => exec_faultedWith_stack_of_wellFormed hrun hpc hwf⟩

/-! ### The fault entry (R165) -/

/-- A step keeps the fault status, with code 0, or is the fault entry of one exception. -/
theorem step_faultStatus_eq_or_enterFault {s t : State} (h : step s = .next t) :
    (t.faultCode = .none ∧ t.faultPc = s.faultPc ∧ t.faultInfo = s.faultInfo) ∨ ∃ e, t = enterFault e s := by
  obtain ⟨hrun, ⟨e, -, rfl⟩ | ⟨i, -, hexec⟩⟩ := (step_eq_next_iff s t).1 h
  · exact .inr ⟨e, rfl⟩
  · rcases (exec_eq_next_iff i s t).1 hexec with hc | ⟨e, -, rfl⟩
    · obtain ⟨hcode, hrecord⟩ := hc.faultStatus_eq
      exact .inl ⟨hcode.trans hrun.2, hrecord⟩
    · exact .inr ⟨e, rfl⟩

theorem step_ne_next_of_faulted {s : State} (hf : s.faultCode ≠ .none) (t : State) : step s ≠ .next t := by
  intro h
  obtain ⟨hrun, -⟩ := (step_eq_next_iff s t).1 h
  exact hf hrun.2

/-- The status ports present the record of a faulted core (R98). -/
theorem ports_of_faulted {s : State} (hf : s.faultCode ≠ .none) : s.ports.faultCode = s.faultCode.bits ∧
    s.ports.faultPc = some s.faultPc ∧ s.ports.faultInfo = some s.faultInfo :=
  ⟨rfl, if_neg hf, if_neg hf⟩

/-- Settles O30: every exception has a code of its own, so a fault entry is told from a step that raises nothing. -/
theorem faultEntryRecordsAndChangesNothingElse : Obligations.FaultEntryRecordsAndChangesNothingElse := by
  refine ⟨fun s t h => ?_, fun _ _ => ⟨rfl, rfl⟩, fun _ => ⟨rfl, rfl⟩, fun _ => ⟨rfl, rfl⟩, ⟨rfl, rfl, rfl, rfl⟩, rfl,
    fun s t hf => step_ne_next_of_faulted hf t, fun s => ports_of_faulted⟩
  exact (step_faultStatus_eq_or_enterFault h).imp_right fun ⟨e, he⟩ => ⟨e, e.code_ne_none, he⟩

end Sys2Proof.Machine

/-! ## The obligations of 70_reset_and_hazards.md -/

namespace Sys2Proof.Machine

/-! ### Reset (R180, R181) -/

/-- Reset writes the stack pointer into registers that are all 0. -/
theorem resetWith_reg (p : Params) (j : Fin 8) :
    (State.resetWith p).reg j = if j = p.spIndex then Config.spReset else 0 := by
  have hzero (i : Fin 8) : State.reg { State.resetWith p with regs := Vector.replicate 8 0 } i = 0 :=
    Vector.getElem_replicate i.isLt
  have hset := State.reg_setReg { State.resetWith p with regs := Vector.replicate 8 0 } p.spIndex j Config.spReset
  rwa [hzero] at hset

theorem resetWith_running (p : Params) : (State.resetWith p).Running := ⟨rfl, rfl⟩

theorem System.apply_reset (p : Params) (y : System) : y.apply p .reset = some ⟨State.resetWith p, false⟩ := rfl

/-- Settles O39. -/
theorem resetLeavesTheStatedValues : Obligations.ResetLeavesTheStatedValues :=
  ⟨fun _ => rfl, resetWith_reg _, rfl, rfl, rfl, rfl, rfl, System.apply_reset _⟩

/-- Of a Running core the invariant asks for no more than canonical memory, the pc in range and the flags: its other clauses
speak of the two ends of a run. -/
theorem State.inv_of_running {s : State} (hrun : s.Running) (hmem : s.mem.wf = true) (hpc : s.pc.toNat ≤ 256)
    (hfl : Flags.ok s.fl) : s.Inv where
  memWf := hmem
  pcRange := hpc
  flags := hfl
  oneEnd := fun _ => hrun.2
  haltedPastHlt := by simp [hrun.1]
  faultRecord := by simp [State.faultRecordOk, hrun.2]

/-- Settles O47. -/
theorem resetMeetsTheInvariant : Obligations.ResetMeetsTheInvariant :=
  State.inv_of_running (resetWith_running _) (resetWith_mem_wf _) (Nat.zero_le _) (.inl rfl)

/-! ### The load phase (R184) -/

theorem loadImage_eq_some_iff {image : List Byte} {s t : State} :
    loadImage image s = some t ↔ image.length ≤ 256 ∧ t = { s with mem := s.mem.putList 0 image } := by
  by_cases h : image.length ≤ 256 <;> simp [loadImage, h, eq_comm]

theorem loadImage_eq_none {image : List Byte} {s : State} (h : 256 < image.length) : loadImage image s = none :=
  if_neg (Nat.not_le.2 h)

/-- The host has a load move only before the first step, and it is one write of the load port (R191). -/
theorem System.apply_load_eq_some_iff {p : Params} {addr data : Byte} {y z : System} :
    y.apply p (.load addr data) = some z ↔ y.started = false ∧ z = { y with core := loadByte addr data y.core } := by
  cases h : y.started <;> simp [System.apply, h, eq_comm]

/-- Settles O40. -/
theorem loadFillsMemoryFromAddressZero : Obligations.LoadFillsMemoryFromAddressZero := by
  refine ⟨fun image hlen => ?_, fun image s => loadImage_eq_none, fun y z addr data hwf hload => ?_⟩
  · have hwf : State.reset.mem.wf = true := resetWith_mem_wf _
    refine ⟨_, loadImage_eq_some_iff.2 ⟨hlen, rfl⟩, rfl, Memory.putList_wf _ _ _ hwf, fun k hk => ?_, fun k hk => ?_⟩
    · have hcell := Memory.get_putList_in State.reset.mem 0 image k hwf hk (by omega)
      rwa [Nat.zero_add] at hcell
    · exact Memory.get_putList_above _ _ _ _ (by omega)
  · obtain ⟨hfresh, rfl⟩ := System.apply_load_eq_some_iff.1 hload
    exact ⟨hfresh, hfresh, rfl, Memory.get_put_same _ _ _ hwf, fun c hc => Memory.get_put_other _ _ _ _ hc⟩

/-! ### The invariant along a run, and under the moves of the host (R186, R191) -/

/-- The contents of memory do not matter to the invariant of a Running core, so a load keeps it. -/
theorem State.Inv.with_mem {s : State} {m : Memory} (hs : s.Inv) (hrun : s.Running) (hm : m.wf = true) :
    State.Inv { s with mem := m } :=
  State.inv_of_running hrun hm hs.pcRange hs.flags

/-- Settles O49. -/
theorem reachableStatesMeetTheInvariant : Obligations.ReachableStatesMeetTheInvariant := by
  intro s hs
  induction hs with
  | loaded image s h =>
    obtain ⟨-, rfl⟩ := loadImage_eq_some_iff.1 h
    exact resetMeetsTheInvariant.with_mem (resetWith_running _) (Memory.putList_wf _ _ _ (resetWith_mem_wf _))
  | stepped s t _ h ih => exact stepKeepsTheInvariant s t ih h

/-- The step move is a step of the core, or leaves all as it is where the core has none (R93). -/
theorem System.apply_step_cases {p : Params} {y z : System} (h : y.apply p .step = some z) :
    (∃ s', stepWith p y.core = .next s' ∧ z = ⟨s', true⟩) ∨ z = y := by
  simp only [System.apply] at h
  split at h
  · next s' hstep => exact .inl ⟨s', hstep, (Option.some.inj h).symm⟩
  all_goals exact .inr (Option.some.inj h).symm

/-- Settles O50: a load finds the core Running, since the host has the move only before the first step, and a step ends that
phase. -/
theorem hostMovesKeepTheInvariant : Obligations.HostMovesKeepTheInvariant := by
  intro y z m hy h
  cases m with
  | reset =>
    cases (System.apply_reset _ y).symm.trans h
    exact ⟨resetMeetsTheInvariant, fun _ => resetWith_running _⟩
  | load addr data =>
    obtain ⟨hfresh, rfl⟩ := System.apply_load_eq_some_iff.1 h
    have hrun := hy.fresh hfresh
    exact ⟨hy.core.with_mem hrun (loadByte_wf addr data _ hy.core.memWf), fun _ => hrun⟩
  | step =>
    rcases System.apply_step_cases h with ⟨s', hstep, rfl⟩ | rfl
    · rw [stepWith_hardware] at hstep
      exact ⟨stepKeepsTheInvariant _ _ hy.core hstep, nofun⟩
    · exact hy

/-! ### A PUSH onto the next opcode byte (R188) -/

/-- A step of a Running core runs what the three bytes at its pc say, or raises InvalidInstruction of the first (R81, R83). -/
theorem step_of_bytes_at_pc {s : State} {n : Nat} {op a b : Byte} (hrun : s.Running) (hpc : s.pc.toNat = n) (hn : n ≤ 253)
    (hop : s.mem.get n = op) (ha : s.mem.get (n + 1) = a) (hb : s.mem.get (n + 2) = b) :
    (∀ m, decodeOpcode Config.hardware op = some m → step s = exec (assemble m a b) s) ∧
    (decodeOpcode Config.hardware op = none → step s = .next (s.faultedWith .invalidInstruction (.opcode op))) := by
  subst hpc hop ha hb
  exact ⟨fun m => step_of_decodeOpcode hrun hn, step_of_unlisted hrun hn⟩

/-- Settles O43: the PUSH stores at the pc it advances to, and keeps the bytes after that one. -/
theorem nextStepExecutesAPushedOpcode : Obligations.NextStepExecutesAPushedOpcode := by
  intro s p a v ha hrun hwf hpc hp hop harg (hsp : (s.reg 7).toNat = p + 3) hv
  have hpush : decodeOpcode Config.hardware 0x45 = some .push :=
    decodeOpcode_opcodeMap _ hardware_injectiveOpcodes .push
  have hstep : step s = exec (.push a) s := (step_of_bytes_at_pc hrun hpc (by omega) hop harg rfl).1 .push hpush
  have hne : s.reg 7 ≠ 0 := by bv_omega
  have hlow : (s.reg 7 - 1).toNat = p + 2 := by rw [toNat_sub_one_of_ne hne, hsp, Nat.add_sub_assoc (by decide)]
  have hbyte : (s.mem.put (s.reg 7 - 1).toNat (s.regs.set 7 (s.regs[7] - 1))[a.toNat]).get (p + 2) = v := by
    rw [hlow, hv, Memory.get_put_same _ _ _ hwf]
  have hkept (c : Nat) (hc : p + 2 < c) :
      (s.mem.put (s.reg 7 - 1).toNat (s.regs.set 7 (s.regs[7] - 1))[a.toNat]).get c = s.mem.get c :=
    Memory.get_put_other _ _ _ _ (by omega)
  have hnext : (s.advance 2).pc.toNat = p + 2 := hpc ▸ State.advance_pc_toNat (by omega)
  have hsp' : ((s.setReg 7 (s.reg 7 - 1)).reg 7).toNat = p + 2 := by rw [State.reg_setReg_same, hlow]
  exact ⟨_, hstep.trans (exec_push_of_ne (regOperand_of_lt a ha) hne), hnext, hsp', hbyte,
    step_of_bytes_at_pc hrun hnext hp hbyte (hkept _ (by omega)) (hkept _ (by omega))⟩

end Sys2Proof.Machine
